-- ==== Sys2Proof/Word.lean ====
section
/-!
DEFINITION. The byte, the five-byte window and the sample record (00_scope.md R8, 10_state.md R20, R21).
Every quantity cut from the stream is unsigned, so a bit vector is read as the natural number it holds.
-/

namespace Sys2Proof

/-- A byte of the stream: an unsigned 8-bit integer, bit 0 the least significant (R8). -/
abbrev Byte := BitVec 8

/-- A 16-bit configuration value (R31, R32). -/
abbrev Half := BitVec 16

/-- The window `W[0..4]` (R20): the five bytes at the cursor, `w0` the earliest. It is a view of the Byte
Accumulator, not storage of its own. -/
structure Window where
  w0 : Byte
  w1 : Byte
  w2 : Byte
  w3 : Byte
  w4 : Byte
deriving DecidableEq, Repr

/-- The bytes of a window in arrival order. -/
def Window.bytes (w : Window) : List Byte := [w.w0, w.w1, w.w2, w.w3, w.w4]

/-- The window read as one 40-bit integer, `w0` in bits 7:0 (R83). -/
def Window.word (w : Window) : BitVec 40 := w.w4 ++ w.w3 ++ w.w2 ++ w.w1 ++ w.w0

/-- The window whose 40-bit word is `v` (R83). -/
def Window.ofWord (v : BitVec 40) : Window :=
  { w0 := v.extractLsb' 0 8, w1 := v.extractLsb' 8 8, w2 := v.extractLsb' 16 8,
    w3 := v.extractLsb' 24 8, w4 := v.extractLsb' 32 8 }

/-- `RawSample` (R21): one decoded record. `angleRaw` is Q6 degrees, `distRaw` is Q2 millimetres with 0 meaning
"no return / invalid". -/
structure RawSample where
  angleRaw : BitVec 15
  distRaw : BitVec 16
  quality : BitVec 6
  startFlag : Bool
deriving DecidableEq, Repr

end Sys2Proof
end

