-- ==== Sys2Proof/Config.lean ====
section
/-!
DEFINITION. The implementation parameters of 00_scope.md R7, with the values this spec takes for them, and the wire
constants the source fixes. The parameters never change while the machine runs; State carries them so that every
statement holds for every admitted value.
-/

namespace Sys2Proof

/-- The admitted instantiations of the number domain `NUM` (R7, R10, R182). A value of each of them is a rational. -/
inductive NumFormat where
  | rational
  | binary64
  | binary32
deriving DecidableEq, Repr

/-- `FILL_SCOPE` (R7, R177): which zero-distance samples the interior fill rewrites. -/
inductive FillScope where
  | interior
  | allZero
deriving DecidableEq, Repr

/-- The named parameters of R7. A capacity of `none` is the spec's `∞`. -/
structure Params where
  /-- `NUM` -/
  num : NumFormat
  /-- `BUF_CAP`, in bytes -/
  bufCap : Option Nat
  /-- `FRAME_CAP`, in samples, at least 1 when finite (R223) -/
  frameCap : Option Nat
  /-- `DESC_RECHECK` (R135) -/
  descRecheck : Bool
  /-- `FILL_SCOPE` -/
  fillScope : FillScope
deriving DecidableEq, Repr

/-- The parameter values this spec takes (R7, third column). -/
def Params.reference : Params :=
  { num := .rational, bufCap := none, frameCap := none, descRecheck := false, fillScope := .interior }

/-- "`FRAME_CAP` must be at least 1" (R223). -/
def Params.wf (p : Params) : Bool :=
  match p.frameCap with
  | none => true
  | some n => decide (1 ≤ n)

/-- Record length (R7): fixed by the source. -/
def recordLen : Nat := 5

/-- Descriptor length (R7, R84): fixed by the source. -/
def descLen : Nat := 7

/-- Signature byte 0 of the descriptor (R84). -/
def sig0 : Byte := 0xA5

/-- Signature byte 1 of the descriptor (R84). -/
def sig1 : Byte := 0x5A

/-- Reset value of `MAXRANGE` (R7, R31). -/
def maxRangeReset : Half := 12000

/-- Reset value of `STRIDE` (R7, R32). -/
def strideReset : Half := 1

end Sys2Proof
end

