-- ==== Sys2Proof/Machine/State.lean ====
section
/-!
DEFINITION. The machine's state as plain data: the decoder-state struct of 10_state.md, the parameters of 00_scope.md
R7, the observation traces and the host's pending actions.
DESIGN CHOICE, safe: the taps as traces, the parameters and the host's actions as fields (notes/assumptions/2.md, 3.md,
6.md).

Not storage, so not fields: the window `W`, the sample register `SR` and the condition bits (R20, R21, R22), which are
functions of `buf` (Machine/Ops.lean, Machine/Operands.lean, Machine/Flags.lean).
-/

namespace Sys2Proof.Machine

/-- `phase`, the session state (R26). -/
inductive Phase where
  | idle
  | synchronizing
  | streaming
  | closed
deriving DecidableEq, Repr

/-- Values of the sticky `fault` register (R30). -/
inductive FaultCode where
  | none
  | bufferGrowthFailure
deriving DecidableEq, Repr

/-- `CorSample` (R23): a sample in the corrector, its angle in degrees in `NUM`. -/
structure CorSample where
  ang : Rat
  distRaw : BitVec 16
  quality : BitVec 6
  startFlag : Bool
deriving DecidableEq, Repr

/-- `DecodedOutput` (R33): three parallel sequences and their length. -/
structure DecodedOutput where
  count : Nat
  angle : List Rat
  distance : List Rat
  quality : List (BitVec 8)
deriving DecidableEq, Repr

/-- What the host can do to the block's surroundings (R36, R90, R214): present an event on the port `EV`, or send one of
the two commands of R92 to the sensor, past the block. -/
inductive HostAction where
  | append (chunk : List Byte)
  | reset
  | close
  | config (maxRange stride : Half)
  | sendScan
  | sendStop
deriving DecidableEq, Repr

/-- The machine. -/
structure State where
  /-- `phase` (R26) -/
  phase : Phase
  /-- `buf`, the Byte Accumulator: bytes appended since the last `RESET` and not consumed, index 0 the head (R25) -/
  buf : List Byte
  /-- `pc`, the stream cursor: bytes consumed since the last `RESET` (R24) -/
  pc : Nat
  /-- the register `descDone` of the reading `DESC_RECHECK = true` (R27, R135); always false in the other reading -/
  descFlag : Bool
  /-- `seenStart` (R28) -/
  seenStart : Bool
  /-- `curFrame`, the frame buffer, in arrival order (R29) -/
  curFrame : List RawSample
  /-- `fault`, the sticky fault register (R30) -/
  fault : FaultCode
  /-- `MAXRANGE`, millimetres (R31) -/
  maxRange : Half
  /-- `STRIDE` (R32) -/
  stride : Half
  /-- `out`, every `DecodedOutput` emitted since power-on (R33) -/
  out : List DecodedOutput
  /-- what the tap `SMP` has carried since power-on (R36, R152) -/
  smpTap : List RawSample
  /-- what the tap `RAWF` has carried since power-on (R36, R166) -/
  rawfTap : List (List RawSample)
  /-- what the tap `CORF` has carried since power-on (R36, R166) -/
  corfTap : List (List CorSample)
  /-- the implementation parameters (R7); no step changes them -/
  params : Params
  /-- MODEL'S OWN: what the host does next, in arrival order (R205) -/
  pending : List HostAction
deriving DecidableEq, Repr

/-- Why an instruction stops the machine. No step of `Sys2Proof.Machine.step` takes one: it runs a stream item only
where the item stands. -/
inductive Fault where
  /-- `DESC`, `SMP.S`, `SMP.N` or `SKIP1` run where `phase` does not select it (R80, R232). Raised by `onItem`. Safe:
  the spec gives the item no effect there. -/
  | itemNotSelected
  /-- `DESC`, `SMP.S`, `SMP.N` or `SKIP1` run with fewer bytes in `buf` than it examines, where the window and
  `consume` are not defined (R20, R113). Raised by `onItem`. Safe, for the same reason. -/
  | itemIncomplete
deriving DecidableEq, Repr

/-- Why an instruction has no meaning in this model. -/
inductive Refusal where
  /-- Only for an instruction that the model has not reached yet; no arm answers it. Safe. -/
  | notModelled (mnemonic : String)
deriving DecidableEq, Repr

/-- The state after power-on reset (R37, R240). The trace and input fields are empty: nothing has been observed and
the host has done nothing. -/
def State.reset : State :=
  { phase := .idle
    buf := []
    pc := 0
    descFlag := false
    seenStart := false
    curFrame := []
    fault := .none
    maxRange := maxRangeReset
    stride := strideReset
    out := []
    smpTap := []
    rawfTap := []
    corfTap := []
    params := Params.reference
    pending := [] }

end Sys2Proof.Machine
end

