-- ==== Sys2Proof/Machine/Commands.lean ====
section
/-!
DEFINITION. The sensor commands of 30_encoding.md R92. They travel from the host to the sensor past the block, which
"neither sends nor decodes them", so the block's state is unchanged. That the host issues `RESET` with a scan command is
the host's duty (R245) and an event of its own.
-/

namespace Sys2Proof.Machine

/-- A command on the command sink, seen from the block: nothing happens (R92). DEDUCED, safe (notes/assumptions/5.md). -/
def passBy (s : State) : State := s

/-- `CMD.SCAN` (R92). -/
def execCmdScan (s : State) : Host.Outcome State Fault Refusal := .next (passBy s)

/-- `CMD.STOP` (R92); the block has no `stop` input (R211). -/
def execCmdStop (s : State) : Host.Outcome State Fault Refusal := .next (passBy s)

end Sys2Proof.Machine
end

