-- ==== Sys2Proof/Machine/Num.lean ====
section
/-!
DEFINITION. The number domain `NUM` (00_scope.md R7, R10; 44_frame_corrector.md R171, R182). A binary64 or binary32 value
is held as the rational it denotes, and an operation of the format is the exact operation followed by one rounding to
nearest, ties to even. PRESUMED: the formats' constants; unsafe under a floating `NUM` for the positions of zero-distance
samples (U3), which no statement rests on (notes/assumptions/8.md). No infinity, NaN or negative zero can arise from the corrector's operands, which are bounded.
-/

namespace Sys2Proof.Machine

/-- The integer nearest to `y`, a tie going to the even one. -/
def nearestEven (y : Rat) : Int :=
  let f := y.floor
  let d := y - (f : Rat)
  if d < 1 / 2 then f
  else if 1 / 2 < d then f + 1
  else if f % 2 = 0 then f else f + 1

/-- `2 ^ e` for an integer `e`. -/
def pow2 (e : Int) : Rat :=
  match e with
  | .ofNat n => ((2 ^ n : Nat) : Rat)
  | .negSucc n => 1 / ((2 ^ (n + 1) : Nat) : Rat)

/-- `floor (log2 |x|)` for `x ≠ 0`: the estimate from the two binary lengths is right or one too large. -/
def binExponent (x : Rat) : Int :=
  let e : Int := (Nat.log2 x.num.natAbs : Int) - (Nat.log2 x.den : Int)
  if |x| < pow2 e then e - 1 else e

/-- `x` rounded to nearest, ties to even, in a binary format of `p` significant bits whose least exponent of a unit is
`emin`. -/
def roundBinary (p : Nat) (emin : Int) (x : Rat) : Rat :=
  if x = 0 then 0
  else
    let q := max (binExponent x - ((p : Int) - 1)) emin
    (nearestEven (x / pow2 q) : Rat) * pow2 q

/-- `fl` of the format (R182): the identity on the rationals. -/
def fl (fmt : NumFormat) (x : Rat) : Rat :=
  match fmt with
  | .rational => x
  | .binary64 => roundBinary 53 (-1074) x
  | .binary32 => roundBinary 24 (-149) x

/-- `fmod(x, 360)`: the exact truncated remainder, with the sign of the dividend (R10, R182). -/
def mod360 (x : Rat) : Rat :=
  if 0 ≤ x then x - 360 * ((x / 360).floor : Rat) else x + 360 * ((-x / 360).floor : Rat)

/-- `wrap360(x) = ((x mod 360) + 360) mod 360` (R171, R182). -/
def wrap360 (fmt : NumFormat) (x : Rat) : Rat := mod360 (fl fmt (mod360 x + 360))

/-- `angleDeg = angleRaw / 64` (R190), exact in every format (R192). -/
def angleDeg (a : BitVec 15) : Rat := (a.toNat : Rat) / 64

/-- `distanceMm = distRaw / 4` (R191), exact in every format (R192). -/
def distanceMm (d : BitVec 16) : Rat := (d.toNat : Rat) / 4

/-- `inc = 360 / n` (R172), `n` converted exactly (R182). -/
def increment (fmt : NumFormat) (n : Nat) : Rat := fl fmt (360 / (n : Rat))

end Sys2Proof.Machine
end

