-- ==== Sys2Proof/Machine/Corrector.lean ====
section
/-!
DEFINITION. The Frame Corrector, the "ascend" algorithm (44_frame_corrector.md R170 to R184). A pure function of the frame and
the parameters `NUM` and `FILL_SCOPE`. Its integer form (R181) stands at the end.
-/

namespace Sys2Proof.Machine

/-- A raw sample as it enters the corrector (R23). -/
def toCor (r : RawSample) : CorSample :=
  { ang := angleDeg r.angleRaw, distRaw := r.distRaw, quality := r.quality, startFlag := r.startFlag }

/-- `distanceMm > 0`, that is `distRaw > 0` (R174). -/
def hasReturn (c : CorSample) : Bool := c.distRaw != 0

/-- Every sample is a miss (R173). -/
def degenerate (C : List CorSample) : Bool := C.all fun c => !hasReturn c

/-- Rewrites the samples before the first one with a return, walking backward from it: each angle is `f` of the angle
just right of it (R175). -/
def tuneLeading (f : Rat → Rat) : List CorSample → List CorSample
  | [] => []
  | c :: cs =>
    if hasReturn c then c :: cs
    else match tuneLeading f cs with
      | [] => [c]
      | d :: ds => { c with ang := f d.ang } :: d :: ds

/-- Head tune (R175): `ang[j] <- wrap360(ang[j+1] - inc)`. -/
def headTune (fmt : NumFormat) (inc : Rat) (C : List CorSample) : List CorSample :=
  tuneLeading (fun a => wrap360 fmt (fl fmt (a - inc))) C

/-- Tail tune (R176): `ang[j] <- wrap360(ang[j-1] + inc)`, the same walk seen from the other end. -/
def tailTune (fmt : NumFormat) (inc : Rat) (C : List CorSample) : List CorSample :=
  (tuneLeading (fun a => wrap360 fmt (fl fmt (a + inc))) C.reverse).reverse

/-- `h`, the least index with a return (R170, R174). -/
def firstReturn (C : List CorSample) : Nat := C.findIdx hasReturn

/-- `t`, the greatest index with a return (R170, R176). -/
def lastReturn (C : List CorSample) : Nat := C.length - 1 - C.reverse.findIdx hasReturn

/-- The indices the interior fill looks at: strictly between `h` and `t`, or every one but 0 under
`FILL_SCOPE = all_zero` (R177). -/
def fillReaches (scope : FillScope) (h t k : Nat) : Bool :=
  match scope with
  | .interior => decide (h < k) && decide (k < t)
  | .allZero => decide (1 ≤ k)

/-- Interior fill (R177): `ang[k] <- wrap360(ang[0] + k * inc)` for the zero-distance samples in reach. -/
def interiorFill (fmt : NumFormat) (scope : FillScope) (inc : Rat) (C : List CorSample) : List CorSample :=
  match C with
  | [] => []
  | c0 :: _ =>
    C.mapIdx fun k c =>
      if !hasReturn c && fillReaches scope (firstReturn C) (lastReturn C) k then
        { c with ang := wrap360 fmt (fl fmt (c0.ang + fl fmt ((k : Rat) * inc))) }
      else c

/-- The three rewriting steps in order, before the sort (R170). -/
def retune (p : Params) (C : List CorSample) : List CorSample :=
  let inc := increment p.num C.length
  interiorFill p.num p.fillScope inc (tailTune p.num inc (headTune p.num inc C))

/-- `StableSortAscendingBy(ang, C)` (R178): equal angles keep their arrival order. -/
def sortByAng (C : List CorSample) : List CorSample := C.insertionSort fun a b => a.ang ≤ b.ang

/-- `Correct(F)` (R170). -/
def correct (p : Params) (F : List RawSample) : List CorSample :=
  let C := F.map toCor
  if degenerate C then C else sortByAng (retune p C)

/-! ### The exact integer form (R181)

Angles of a frame of `n` samples in units of `1/(64·n)` degree: a raw angle is `angleRaw · n`, the increment 23040, the
full circle `23040 · n`. -/

/-- A sample with its angle in units of `1/(64·n)` degree. -/
structure IntSample where
  units : Int
  distRaw : BitVec 16
  quality : BitVec 6
  startFlag : Bool
deriving DecidableEq, Repr

/-- A raw sample of a frame of `n` samples, in units. -/
def toUnits (n : Nat) (r : RawSample) : IntSample :=
  { units := (r.angleRaw.toNat : Int) * n, distRaw := r.distRaw, quality := r.quality, startFlag := r.startFlag }

/-- The walk of the head and tail tune on units. -/
def tuneLeadingUnits (f : Int → Int) : List IntSample → List IntSample
  | [] => []
  | c :: cs =>
    if c.distRaw != 0 then c :: cs
    else match tuneLeadingUnits f cs with
      | [] => [c]
      | d :: ds => { c with units := f d.units } :: d :: ds

/-- The interior fill on units, scope `interior`. -/
def interiorFillUnits (M : Int) (C : List IntSample) : List IntSample :=
  match C with
  | [] => []
  | c0 :: _ =>
    C.mapIdx fun k c =>
      if c.distRaw == 0
          && fillReaches .interior (C.findIdx fun d => d.distRaw != 0)
              (C.length - 1 - C.reverse.findIdx fun d => d.distRaw != 0) k then
        { c with units := (c0.units + 23040 * (k : Int)) % M }
      else c

/-- The corrector in integer arithmetic (R181): `wrap360` is the non-negative remainder modulo the full circle. -/
def correctUnits (F : List RawSample) : List IntSample :=
  let n := F.length
  let M : Int := 23040 * (n : Int)
  let C := F.map (toUnits n)
  if C.all (fun c => c.distRaw == 0) then C
  else
    let H := tuneLeadingUnits (fun a => (a - 23040) % M) C
    let T := (tuneLeadingUnits (fun a => (a + 23040) % M) H.reverse).reverse
    (interiorFillUnits M T).insertionSort fun a b => a.units ≤ b.units

/-- A sample in units as the corrected sample it denotes: "the value in degrees is the integer divided by `64·n`"
(R181). -/
def ofUnits (n : Nat) (c : IntSample) : CorSample :=
  { ang := (c.units : Rat) / (64 * (n : Rat)), distRaw := c.distRaw, quality := c.quality, startFlag := c.startFlag }

end Sys2Proof.Machine
end

