-- ==== Sys2Proof/Machine/Flags.lean ====
section
/-!
DEFINITION. The per-window condition bits of 10_state.md R22 and 42_sample_sync_decoder.md R141. They are functions of
the window, not storage. The block has no arithmetic condition codes.
-/

namespace Sys2Proof.Machine

/-- `s = W[0][0]`, the start bit. -/
def bitS (w : Window) : Bool := w.w0.getLsbD 0

/-- `ns = W[0][1]`, the inverted start bit. -/
def bitNs (w : Window) : Bool := w.w0.getLsbD 1

/-- `c = W[1][0]`, the check bit. -/
def bitC (w : Window) : Bool := w.w1.getLsbD 0

/-- `okS = (s xor ns = 1)`. -/
def okS (w : Window) : Bool := Bool.xor (bitS w) (bitNs w)

/-- `okC = (c = 1)`. -/
def okC (w : Window) : Bool := bitC w

/-- `valid = okS and okC`. -/
def valid (w : Window) : Bool := okS w && okC w

end Sys2Proof.Machine
end

