-- ==== Sys2Proof/Machine/Operands.lean ====
section
/-!
DEFINITION. The operand forms: the fields of a sample record and how they are laid in its five bytes, both ways
(30_encoding.md R81, R82, R94; 42_sample_sync_decoder.md R142), and the byte order of two-byte quantities (20_memory.md R52).
-/

namespace Sys2Proof.Machine

/-- Two bytes, least significant first, as one 16-bit value (R52). -/
def halfOf (lo hi : Byte) : Half := hi ++ lo

/-- Bits 7:0 of a 16-bit value (R52). -/
def loByte (v : Half) : Byte := v.extractLsb' 0 8

/-- Bits 15:8 of a 16-bit value (R52). -/
def hiByte (v : Half) : Byte := v.extractLsb' 8 8

/-- `angleRaw = {W[2][7:0], W[1][7:1]}` (R82). -/
def angleOf (w : Window) : BitVec 15 := w.w2 ++ w.w1.extractLsb' 1 7

/-- `distRaw = {W[4][7:0], W[3][7:0]}` (R82). -/
def distOf (w : Window) : BitVec 16 := halfOf w.w3 w.w4

/-- `quality = W[0][7:2]` (R82). -/
def qualityOf (w : Window) : BitVec 6 := w.w0.extractLsb' 2 6

/-- `decode(W)` (R142), defined for every window and used only on valid ones. -/
def decodeWindow (w : Window) : RawSample :=
  { angleRaw := angleOf w, distRaw := distOf w, quality := qualityOf w, startFlag := bitS w }

/-- `enc(start, q, a, d)` (R94): the window that carries the sample. -/
def enc (r : RawSample) : Window :=
  { w0 := r.quality ++ BitVec.ofBool (!r.startFlag) ++ BitVec.ofBool r.startFlag
    w1 := r.angleRaw.extractLsb' 0 7 ++ BitVec.ofBool true
    w2 := r.angleRaw.extractLsb' 7 8
    w3 := loByte r.distRaw
    w4 := hiByte r.distRaw }

end Sys2Proof.Machine
end

