-- ==== Sys2Proof/Machine/Ops.lean ====
section
/-!
DEFINITION. The named operations over memory and registers (00_scope.md R11, 20_memory.md, 40_byte_accumulator_pass.md
R113) and taking the one fault of the block (60_exceptions.md R224). There is no return from it (R230).
-/

namespace Sys2Proof.Machine

/-! ### The Byte Accumulator -/

/-- The window at the cursor, defined while at least 5 bytes are there (R20). -/
def windowAt (bs : List Byte) : Option Window :=
  match bs with
  | b0 :: b1 :: b2 :: b3 :: b4 :: _ => some ⟨b0, b1, b2, b3, b4⟩
  | _ => none

/-- "`buf[0] = 0xA5` and `buf[1] = 0x5A`" (R84, R132). -/
def signatureAt (bs : List Byte) : Bool :=
  match bs with
  | b0 :: b1 :: _ => b0 == sig0 && b1 == sig1
  | _ => false

/-- `MemRead(addr, n)` (R11, R50): the bytes of the session stream at offsets `addr .. addr+n-1`, defined only inside
`buf`. -/
def memRead (addr n : Nat) (s : State) : Option (List Byte) :=
  if s.pc ≤ addr ∧ addr + n ≤ s.pc + s.buf.length then some ((s.buf.drop (addr - s.pc)).take n) else none

/-- The Byte Accumulator as cells of the session stream: `buf[i]` is the byte at stream offset `pc + i` (R24, R50).
Every other address reads as nothing. DEDUCED, safe (notes/assumptions/14.md). -/
def streamCells (s : State) : List Host.Cell := (s.buf.zipIdx s.pc).map fun p => (p.2, p.1)

/-- The canonical form of a list of cells: addresses strictly rising. -/
def Memory.wf (m : List Host.Cell) : Bool := decide (m.Pairwise fun a b => a.1 < b.1)

/-- `consume(k)` (R113): the callers guarantee `k ≤ len(buf)`. -/
def consume (k : Nat) (s : State) : State := { s with buf := s.buf.drop k, pc := s.pc + k }

/-- `MemWrite(buf, chunk)` (R51). -/
def appendBytes (chunk : List Byte) (s : State) : State := { s with buf := s.buf ++ chunk }

/-- Appending `n` bytes would exceed `BUF_CAP` (R65). -/
def bufOverflows (n : Nat) (s : State) : Bool :=
  match s.params.bufCap with
  | none => false
  | some cap => decide (cap < s.buf.length + n)

/-! ### The frame buffer, the output trace and the taps -/

/-- `MemWrite(curFrame, sample)` (R55). -/
def appendSample (r : RawSample) (s : State) : State := { s with curFrame := s.curFrame ++ [r] }

/-- The frame buffer cannot take one more sample (R55). DEDUCED, safe: a buffer longer than its capacity, which no run
reaches, is full too (notes/assumptions/13.md). -/
def frameFull (s : State) : Bool :=
  match s.params.frameCap with
  | none => false
  | some cap => decide (cap ≤ s.curFrame.length)

/-- `curFrame <- []` (R160). -/
def clearFrame (s : State) : State := { s with curFrame := [] }

/-- `seenStart <- 1` for a start-flagged sample (R163). -/
def noteStart (flag : Bool) (s : State) : State := { s with seenStart := s.seenStart || flag }

/-- `MemWrite(out, d)` together with `emit OUT(d)` (R57). -/
def emitOut (d : DecodedOutput) (s : State) : State := { s with out := s.out ++ [d] }

/-- `emit SMP(r)` (R152). -/
def emitSmp (r : RawSample) (s : State) : State := { s with smpTap := s.smpTap ++ [r] }

/-- `emit RAWF(F)` (R166). -/
def emitRawf (F : List RawSample) (s : State) : State := { s with rawfTap := s.rawfTap ++ [F] }

/-- `emit CORF(C)` (R166). -/
def emitCorf (C : List CorSample) (s : State) : State := { s with corfTap := s.corfTap ++ [C] }

/-! ### The descriptor check and the phase -/

/-- The descriptor check of this session is still to be made. With `DESC_RECHECK = false` that is
`phase = Synchronizing` (R27, R132), with `true` it is the register `descDone` at 0 (R135). -/
def descPending (s : State) : Bool :=
  if s.params.descRecheck then !s.descFlag else s.phase == .synchronizing

/-- `descDone` (R27). -/
def descDone (s : State) : Bool :=
  if s.params.descRecheck then s.descFlag else s.phase == .streaming

/-- `if phase = Idle: phase <- Synchronizing` (R110, R111). -/
def startSession (s : State) : State :=
  { s with phase := if s.phase = .idle then .synchronizing else s.phase }

/-- `phase <- Streaming` (R134). -/
def enterStreaming (s : State) : State := { s with phase := .streaming }

/-- `descDone <- 1`, a register of its own only under `DESC_RECHECK = true` (R135). -/
def noteDescriptor (s : State) : State := { s with descFlag := s.descFlag || s.params.descRecheck }

/-! ### Taking the fault -/

/-- `raise BufferGrowthFailure` (R224): the fault is recorded, the block closes, the session state is cleared. `pc`, the
configuration and everything emitted stay. -/
def raiseBufferGrowthFailure (s : State) : State :=
  { s with fault := .bufferGrowthFailure, phase := .closed, buf := [], curFrame := [], seenStart := false }

/-! ### Running a stream item -/

/-- The effect `f` of a stream item that needs `k` bytes at the head of `buf`, where the item is available (R80, R232);
elsewhere the spec gives it none.
DESIGN CHOICE, safe: that it faults there, and under which names (notes/assumptions/7.md). -/
def onItem (available : Bool) (k : Nat) (f : State → State) (s : State) : Host.Outcome State Fault Refusal :=
  if !available then .fault .itemNotSelected
  else if s.buf.length < k then .fault .itemIncomplete
  else .next (f s)

end Sys2Proof.Machine
end

