-- ==== Sys2Proof/Machine/Filter.lean ====
section
/-!
DEFINITION. The Output Filter/Decimator (45_normalizer_filter.md R193 to R200).
-/

namespace Sys2Proof.Machine

/-- The samples at the indices `0, STRIDE, 2·STRIDE, ...` (R194). DESIGN CHOICE, safe: a stride of 0, which no run
reaches, visits index 0 alone (notes/assumptions/9.md). -/
def visited (stride : Nat) (C : List CorSample) : List CorSample :=
  (C.zipIdx.filter fun p => p.2 % stride == 0).map fun p => p.1

/-- The range test (R195): dropped when `d <= 0 or d >= MAXRANGE`. -/
def inRange (maxRange : Half) (c : CorSample) : Bool :=
  !(decide (distanceMm c.distRaw ≤ 0) || decide ((maxRange.toNat : Rat) ≤ distanceMm c.distRaw))

/-- The samples that are emitted: the stride first, the range test second (R194). -/
def kept (maxRange stride : Half) (C : List CorSample) : List CorSample :=
  (visited stride.toNat C).filter (inRange maxRange)

/-- The `DecodedOutput` of the kept samples (R196): corrected angle, distance in millimetres, the 6-bit quality in an
8-bit container. -/
def decodedOutput (K : List CorSample) : DecodedOutput :=
  { count := K.length
    angle := K.map fun c => c.ang
    distance := K.map fun c => distanceMm c.distRaw
    quality := K.map fun c => c.quality.setWidth 8 }

/-- `Filter(C)` (R193, R197): at most one `DecodedOutput`, none when no sample survives. -/
def filterFrame (C : List CorSample) (s : State) : State :=
  let K := kept s.maxRange s.stride C
  if K.isEmpty then s else emitOut (decodedOutput K) s

end Sys2Proof.Machine
end

