-- ==== Sys2Proof/Machine/Assembler.lean ====
section
/-!
DEFINITION. The Frame Assembler (43_frame_assembler.md R160 to R167).
-/

namespace Sys2Proof.Machine

/-- `CompleteFrame(F)` (R166). -/
def completeFrame (F : List RawSample) (s : State) : State :=
  let C := correct s.params F
  filterFrame C (emitCorf C (emitRawf F s))

/-- A start-flagged sample closes the current frame when one was opened before it (R161). -/
def closesFrame (r : RawSample) (s : State) : Bool := r.startFlag && s.seenStart && !s.curFrame.isEmpty

/-- The state in which `Assemble` appends: the frame completed and cleared if the sample closes it (R161). -/
def afterClosing (r : RawSample) (s : State) : State :=
  if closesFrame r s then clearFrame (completeFrame s.curFrame s) else s

/-- The append of `Assemble` (R162, R163): it faults when the frame buffer cannot grow (R55, R223). -/
def takeIn (r : RawSample) (s : State) : State :=
  if frameFull s then raiseBufferGrowthFailure s else noteStart r.startFlag (appendSample r s)

/-- `Assemble(smp)` (R160): complete, append, note the start. -/
def assemble (r : RawSample) (s : State) : State := takeIn r (afterClosing r s)

end Sys2Proof.Machine
end

