-- ==== Sys2Proof/Machine/Stream.lean ====
section
/-!
DEFINITION. The stream items: `DESC` (41_descriptor_skipper.md R133), `SMP.S`, `SMP.N`, `SKIP1` (42_sample_sync_decoder.md
R143 to R145). The effect of each is an operation on states; its meaning runs that effect where the item is available.
-/

namespace Sys2Proof.Machine

/-- The effect of `DESC` (R133). -/
def skipDescriptor (s : State) : State := noteDescriptor (consume descLen s)

/-- The effect of `SMP.S` and `SMP.N` (R143): consume the record, show the sample on the tap, assemble it. -/
def takeSample (r : RawSample) (s : State) : State := assemble r (emitSmp r (consume recordLen s))

/-- The effect of `SKIP1` (R145): one byte is discarded, nothing else. -/
def skipByte (s : State) : State := consume 1 s

/-- `DESC` is available while the descriptor check is to be made (R80, R131, R232). -/
def descAvailable (s : State) : Bool := descPending s && (s.phase == .synchronizing || s.phase == .streaming)

/-- The window items are available in `Streaming` (R80, R232). -/
def windowAvailable (s : State) : Bool := s.phase == .streaming

/-- `DESC` (R133). The phase is set by the pass after it (R134); DEDUCED, safe
(notes/assumptions/11.md). The tail bytes are not read (R84). -/
def execDesc (_t2 _t3 _t4 _t5 _t6 : Byte) (s : State) : Host.Outcome State Fault Refusal :=
  onItem (descAvailable s) descLen skipDescriptor s

/-- `SMP.S` (R143). -/
def execSmpS (q : BitVec 6) (a : BitVec 15) (d : BitVec 16) (s : State) : Host.Outcome State Fault Refusal :=
  onItem (windowAvailable s) recordLen (takeSample ⟨a, d, q, true⟩) s

/-- `SMP.N` (R144). -/
def execSmpN (q : BitVec 6) (a : BitVec 15) (d : BitVec 16) (s : State) : Host.Outcome State Fault Refusal :=
  onItem (windowAvailable s) recordLen (takeSample ⟨a, d, q, false⟩) s

/-- `SKIP1` (R145): five bytes are examined, one is consumed. DESIGN CHOICE, safe: the constructor holds the window
(notes/assumptions/15.md). -/
def execSkip1 (_w : Window) (s : State) : Host.Outcome State Fault Refusal :=
  onItem (windowAvailable s) recordLen skipByte s

end Sys2Proof.Machine
end

