-- ==== Sys2Proof/Machine/Pass.lean ====
section
/-!
DEFINITION. The parse pass (40_byte_accumulator_pass.md R112 to R116), in both readings of the descriptor check
(41_descriptor_skipper.md R132, R135). DEDUCED, safe: what R135 leaves unsaid of the flag (notes/assumptions/12.md).
-/

namespace Sys2Proof.Machine

/-- One window (R140): exactly one of `SMP.S`, `SMP.N`, `SKIP1`. -/
def windowStep (w : Window) (s : State) : State :=
  if valid w then takeSample (decodeWindow w) s else skipByte s

/-- The sample loop (R112, R114): while at least 5 bytes remain, and until a fault closes the block. The fuel bounds the
number of windows. -/
def runWindows : Nat → State → State
  | 0, s => s
  | fuel + 1, s =>
    match windowAt s.buf with
    | none => s
    | some w =>
      let t := windowStep w s
      if t.phase = .closed then t else runWindows fuel t

/-- The whole sample loop: every window consumes a byte, so `len(buf)` windows are enough (R115). -/
def sampleLoop (s : State) : State := runWindows s.buf.length s

/-- The descriptor check (R132 to R134): skip the descriptor if its signature stands at the head, then `Streaming`. -/
def checkDescriptor (s : State) : State :=
  enterStreaming (if signatureAt s.buf then skipDescriptor s else s)

/-- `Pass()` (R112), and `Pass'()` under `DESC_RECHECK = true` (R135): hold while the check is to be made and fewer
than 7 bytes are there (R131). -/
def parsePass (s : State) : State :=
  if descPending s then
    if s.buf.length < descLen then s else sampleLoop (checkDescriptor s)
  else sampleLoop s

end Sys2Proof.Machine
end

