-- ==== Sys2Proof/Machine/Events.lean ====
section
/-!
DEFINITION. The host events `APPEND` (40_byte_accumulator_pass.md R110), `RESET`, `CLOSE`, `CONFIG` (46_session_control.md R207,
R209, R212). Each is one atomic step (R205), and none has an effect in `Closed` (R210).
-/

namespace Sys2Proof.Machine

/-- The effect of an event outside `Closed`, where every event is ignored (R210, R225). -/
def unlessClosed (f : State → State) (s : State) : State := if s.phase = .closed then s else f s

/-- `RESET` clears the session (R207); the descriptor-skip flag with it (R27). -/
def clearSession (s : State) : State :=
  { s with buf := [], pc := 0, phase := .idle, descFlag := false, seenStart := false, curFrame := [] }

/-- `CLOSE` (R209). DEDUCED, safe: not in `Closed`, where R210 has nothing change (notes/assumptions/10.md). -/
def closeBlock (s : State) : State :=
  { s with phase := .closed, buf := [], curFrame := [], seenStart := false }

/-- `CONFIG` (R212): a stride of 0 is refused, both registers keeping their values. -/
def configure (m st : Half) (s : State) : State :=
  if st = 0 then s else { s with maxRange := m, stride := st }

/-- `APPEND` (R110): the capacity check, the append, one pass. -/
def deliver (chunk : List Byte) (s : State) : State :=
  if bufOverflows chunk.length s then raiseBufferGrowthFailure s
  else parsePass (appendBytes chunk (startSession s))

/-- `APPEND` (R110). -/
def execAppend (chunk : List Byte) (s : State) : Host.Outcome State Fault Refusal :=
  .next (unlessClosed (deliver chunk) s)

/-- `RESET` (R207). -/
def execReset (s : State) : Host.Outcome State Fault Refusal := .next (unlessClosed clearSession s)

/-- `CLOSE` (R209). -/
def execClose (s : State) : Host.Outcome State Fault Refusal := .next (unlessClosed closeBlock s)

/-- `CONFIG` (R212). -/
def execConfig (m st : Half) (s : State) : Host.Outcome State Fault Refusal :=
  .next (unlessClosed (configure m st) s)

end Sys2Proof.Machine
end

