-- ==== Sys2Proof/Syntax.lean ====
section
/-!
DEFINITION. The instructions: the stream items of 30_encoding.md R80, the host events of R90 and the command bytes of
R92, one constructor per mnemonic of spec/opcode_table.json (its four `SKIP1` rows are one instruction).
-/

namespace Sys2Proof

/-- One instruction in the sense of 00_scope.md R3, with the fields its encoding carries. -/
inductive Instr where
  /-- `DESC` (R84, R133): the 7-byte descriptor; the five bytes after the signature, which nothing reads. -/
  | desc (t2 t3 t4 t5 t6 : Byte)
  /-- `SMP.S` (R81, R143): a valid sample with the start flag. -/
  | smpS (quality : BitVec 6) (angleRaw : BitVec 15) (distRaw : BitVec 16)
  /-- `SMP.N` (R81, R144): a valid sample without the start flag. -/
  | smpN (quality : BitVec 6) (angleRaw : BitVec 15) (distRaw : BitVec 16)
  /-- `SKIP1` (R85, R145): resynchronisation step over the window `w`, five bytes examined, one consumed. -/
  | skip1 (w : Window)
  /-- `APPEND` (R90, R110): the host delivers a chunk. -/
  | append (chunk : List Byte)
  /-- `RESET` (R90, R207). -/
  | reset
  /-- `CLOSE` (R90, R209). -/
  | close
  /-- `CONFIG` (R90, R212). -/
  | config (maxRange stride : Half)
  /-- `CMD.SCAN` (R92): the start-scan command `A5 20`, sent by the host to the sensor. -/
  | cmdScan
  /-- `CMD.STOP` (R92): the stop-scan command `A5 25`, sent by the host to the sensor. -/
  | cmdStop
deriving DecidableEq, Repr

/-- The formats of spec/opcode_table.json. -/
inductive Format where
  | descriptor
  | sample
  | event
  | command
deriving DecidableEq, Repr

/-- The format an instruction is encoded in. -/
def Instr.format : Instr → Format
  | .desc _ _ _ _ _ => .descriptor
  | .smpS _ _ _ => .sample
  | .smpN _ _ _ => .sample
  | .skip1 _ => .sample
  | .append _ => .event
  | .reset => .event
  | .close => .event
  | .config _ _ => .event
  | .cmdScan => .command
  | .cmdStop => .command

end Sys2Proof
end

