-- ==== Sys2Proof/Machine/Dispatch.lean ====
section
/-!
DEFINITION. What each instruction does: one arm per constructor, each one call of the instruction's meaning.
-/

namespace Sys2Proof.Machine

def exec (i : Instr) (s : State) : Host.Outcome State Fault Refusal :=
  match i with
  -- stream items
  | .desc t2 t3 t4 t5 t6 => Sys2Proof.Machine.execDesc t2 t3 t4 t5 t6 s
  | .smpS q a d => Sys2Proof.Machine.execSmpS q a d s
  | .smpN q a d => Sys2Proof.Machine.execSmpN q a d s
  | .skip1 w => Sys2Proof.Machine.execSkip1 w s
  -- host events
  | .append chunk => Sys2Proof.Machine.execAppend chunk s
  | .reset => Sys2Proof.Machine.execReset s
  | .close => Sys2Proof.Machine.execClose s
  | .config m st => Sys2Proof.Machine.execConfig m st s
  -- commands to the sensor
  | .cmdScan => Sys2Proof.Machine.execCmdScan s
  | .cmdStop => Sys2Proof.Machine.execCmdStop s

end Sys2Proof.Machine
end

