-- ==== Sys2Proof/WellFormed.lean ====
section
/-!
DEFINITION. Which terms of `Instr` are instructions of the spec. The field widths are in the types, so one check is
left: a `SKIP1` is a window that fails the structural checks (30_encoding.md R85).
-/

namespace Sys2Proof

/-- The instruction is one the encoding can carry. -/
def Instr.wf : Instr → Bool
  | .skip1 w => !Machine.valid w
  | .desc _ _ _ _ _ => true
  | .smpS _ _ _ => true
  | .smpN _ _ _ => true
  | .append _ => true
  | .reset => true
  | .close => true
  | .config _ _ => true
  | .cmdScan => true
  | .cmdStop => true

end Sys2Proof
end

