-- ==== Sys2Proof/Decode.lean ====
section
/-!
DEFINITION. Decoding (30_encoding.md R80 to R92), total on any bytes and rejecting by name, and after it the encoder
written from the same tables.

The wire form of a host event is the model's own: the spec gives an event a 2-bit code and operands and no layout
(R90). Here an event is its code byte, of which only bits 1:0 (`EV[1:0]`) exist on the port, followed by its operands:
the chunk of an `APPEND` as it is, the two 16-bit operands of a `CONFIG` least significant byte first.
DESIGN CHOICE, safe: no rule reads the layout (notes/assumptions/4.md).
-/

namespace Sys2Proof

/-- Why bytes are not an instruction of a format. -/
inductive DecodeError where
  /-- A descriptor is 7 bytes, a sample window 5, a command 2. -/
  | wrongLength
  /-- The seven bytes do not begin with `A5 5A` (R84). -/
  | noSignature
  /-- An event without its code. -/
  | noEventCode
  /-- `RESET` and `CLOSE` have no operands (R90). -/
  | operandsNotExpected
  /-- `CONFIG` has two 16-bit operands (R90). -/
  | configOperands
  /-- Two bytes that are neither start-scan nor stop-scan (R92). -/
  | unknownCommand
deriving DecidableEq, Repr

/-- Classification of a window, complete over all of them (R85). -/
def classify (w : Window) : Instr :=
  if Machine.valid w then
    if Machine.bitS w then .smpS (Machine.qualityOf w) (Machine.angleOf w) (Machine.distOf w)
    else .smpN (Machine.qualityOf w) (Machine.angleOf w) (Machine.distOf w)
  else .skip1 w

/-- Format `DESCRIPTOR` (R84). -/
def decodeDescriptor (bs : List Byte) : Except DecodeError Instr :=
  match bs with
  | [b0, b1, b2, b3, b4, b5, b6] =>
    if b0 = sig0 ∧ b1 = sig1 then .ok (.desc b2 b3 b4 b5 b6) else .error .noSignature
  | _ => .error .wrongLength

/-- Format `SAMPLE` (R81, R85): every window is an instruction. -/
def decodeSample (bs : List Byte) : Except DecodeError Instr :=
  match bs with
  | [b0, b1, b2, b3, b4] => .ok (classify ⟨b0, b1, b2, b3, b4⟩)
  | _ => .error .wrongLength

/-- Format `EVENT` (R90): the code in bits 1:0 of the first byte, then the operands. -/
def decodeEvent (bs : List Byte) : Except DecodeError Instr :=
  match bs with
  | [] => .error .noEventCode
  | b :: ops =>
    let code := b.extractLsb' 0 2
    if code = 0 then .ok (.append ops)
    else if code = 1 then (if ops = [] then .ok .reset else .error .operandsNotExpected)
    else if code = 2 then (if ops = [] then .ok .close else .error .operandsNotExpected)
    else match ops with
      | [m0, m1, s0, s1] => .ok (.config (Machine.halfOf m0 m1) (Machine.halfOf s0 s1))
      | _ => .error .configOperands

/-- Format `COMMAND` (R92): "start-scan = [0xA5, 0x20], stop-scan = [0xA5, 0x25]". -/
def decodeCommand (bs : List Byte) : Except DecodeError Instr :=
  match bs with
  | [b0, b1] =>
    if b0 = 0xA5 ∧ b1 = 0x20 then .ok .cmdScan
    else if b0 = 0xA5 ∧ b1 = 0x25 then .ok .cmdStop
    else .error .unknownCommand
  | _ => .error .wrongLength

/-- Decoding of the bytes of one instruction of format `f`. -/
def decode (f : Format) (bs : List Byte) : Except DecodeError Instr :=
  match f with
  | .descriptor => decodeDescriptor bs
  | .sample => decodeSample bs
  | .event => decodeEvent bs
  | .command => decodeCommand bs

/-- The bytes of an instruction (R81, R84, R90, R92, R94). -/
def encode : Instr → List Byte
  | .desc t2 t3 t4 t5 t6 => [sig0, sig1, t2, t3, t4, t5, t6]
  | .smpS q a d => (Machine.enc ⟨a, d, q, true⟩).bytes
  | .smpN q a d => (Machine.enc ⟨a, d, q, false⟩).bytes
  | .skip1 w => w.bytes
  | .append chunk => 0 :: chunk
  | .reset => [1]
  | .close => [2]
  | .config m st => [3, Machine.loByte m, Machine.hiByte m, Machine.loByte st, Machine.hiByte st]
  | .cmdScan => [0xA5, 0x20]
  | .cmdStop => [0xA5, 0x25]

/-- Byte `k` of a number, byte 0 the least significant. -/
def byteOf (v k : Nat) : Byte := BitVec.ofNat 8 (v >>> (8 * k))

/-- The `n` lowest bytes of a number, least significant first: the order in which they arrive (R83). -/
def bytesOf (n v : Nat) : List Byte := (List.range n).map (byteOf v)

/-- The format of a row of spec/opcode_table.json, told by its width: 56, 40, 2 and 16 bits. A 2-bit event code is
one byte when the width is counted in whole bytes. -/
def formatOfWidth (nbits : Nat) : Option Format :=
  if nbits = 56 then some .descriptor
  else if nbits = 40 then some .sample
  else if nbits = 16 then some .command
  else if nbits = 8 ∨ nbits = 2 then some .event
  else none

/-- The bytes of the table's word `v`: the operand bytes the table gives no bits to are zeros, and an `APPEND` without
operand bytes carries the empty chunk. -/
def tableBytes (f : Format) (v : Nat) : List Byte :=
  match f with
  | .descriptor => bytesOf descLen v
  | .sample => bytesOf recordLen v
  | .command => bytesOf 2 v
  | .event => if v % 4 = 3 then byteOf v 0 :: [0, 0, 0, 0] else [byteOf v 0]

/-- The instruction this decoder reads from a word of spec/opcode_table.json. -/
def decodeTableWord (nbits w : Nat) : Option Instr :=
  match formatOfWidth nbits with
  | none => none
  | some f =>
    match decode f (tableBytes f w) with
    | .ok i => some i
    | .error _ => none

end Sys2Proof
end

