-- ==== Sys2Proof/Machine/Fetch.lean ====
section
/-!
DEFINITION. Where the next instruction comes from: the stream item that stands complete at the cursor
(30_encoding.md R80), else the next thing the host does (46_session_control.md R205). And the host's side of the two ports: an
event as an instruction, several events presented at once (60_exceptions.md R228), and placing a word where it is fetched.
-/

namespace Sys2Proof.Machine

/-- The item a list of bytes begins with, read with the decoder of a format of `n` bytes. -/
def itemOf (f : Format) (n : Nat) (bs : List Byte) : Option Instr :=
  match decode f (bs.take n) with
  | .ok i => some i
  | .error _ => none

/-- The item at the cursor (R80): `DESC` while the descriptor check is to be made and its signature stands there, else
the window's; no item while fewer bytes are there than the decision needs (R114, R131), or when no pass can stand open. -/
def fetchItem (s : State) : Option Instr :=
  if s.phase = .synchronizing ∨ s.phase = .streaming then
    if descPending s then
      if s.buf.length < descLen then none
      else if signatureAt s.buf then itemOf .descriptor descLen s.buf
      else itemOf .sample recordLen s.buf
    else itemOf .sample recordLen s.buf
  else none

/-- The instruction a host action is. -/
def HostAction.instr : HostAction → Instr
  | .append chunk => .append chunk
  | .reset => .reset
  | .close => .close
  | .config m st => .config m st
  | .sendScan => .cmdScan
  | .sendStop => .cmdStop

/-- The host action an instruction is, if it is one. -/
def actionOf (i : Instr) : Option HostAction :=
  match i with
  | .append chunk => some (.append chunk)
  | .reset => some .reset
  | .close => some .close
  | .config m st => some (.config m st)
  | .cmdScan => some .sendScan
  | .cmdStop => some .sendStop
  | .desc _ _ _ _ _ => none
  | .smpS _ _ _ => none
  | .smpN _ _ _ => none
  | .skip1 _ => none

/-- What the machine takes next. -/
inductive Fetched where
  | item (i : Instr)
  | action (a : HostAction) (rest : List HostAction)
  | nothing
deriving DecidableEq, Repr

/-- The next thing to do: an item that stands at the cursor comes before the host's next action, because an event is
processed to completion before the next is looked at (R60). -/
def fetch (s : State) : Fetched :=
  match fetchItem s with
  | some i => .item i
  | none =>
    match s.pending with
    | [] => .nothing
    | a :: rest => .action a rest

/-- The state in which a fetched window runs: the descriptor check is over once an item is taken (R134). -/
def beforeItem (i : Instr) (s : State) : State :=
  match i with
  | .desc _ _ _ _ _ => s
  | _ => enterStreaming s

/-- After `DESC` the phase is `Streaming` (R134). -/
def afterItem (i : Instr) (s : State) : State :=
  match i with
  | .desc _ _ _ _ _ => enterStreaming s
  | _ => s

/-- The next state of an outcome changed by `f`; a stop stays as it is. -/
def mapNext (f : State → State) (o : Host.Outcome State Fault Refusal) : Host.Outcome State Fault Refusal :=
  match o with
  | .next t => .next (f t)
  | .fault r => .fault r
  | .refused r => .refused r

/-- The order in which events presented at once are taken: `CLOSE` over `RESET` over `CONFIG` over `APPEND` (R228). A
command is not an event, and comes after them. -/
def HostAction.rank : HostAction → Nat
  | .close => 0
  | .reset => 1
  | .config _ _ => 2
  | .append _ => 3
  | .sendScan => 4
  | .sendStop => 4

/-- The host presents several actions at once (R228). -/
def present (batch : List HostAction) (s : State) : State :=
  { s with pending := s.pending ++ batch.insertionSort fun a b => a.rank ≤ b.rank }

/-- No item stands at the cursor: `buf` is emptied if one does. -/
def noItem (s : State) : State :=
  match fetchItem s with
  | none => s
  | some _ => { s with buf := [] }

/-- Places the bytes of one instruction of format `f` where the machine takes its next instruction: a stream item at the
head of `buf` in the phase that selects it, an event or command first among the host's actions. Bytes that are no event
or command are not placed. -/
def placeBytes (f : Format) (bs : List Byte) (s : State) : State :=
  match f with
  | .descriptor => { s with phase := .synchronizing, descFlag := false, buf := bs ++ s.buf.drop descLen }
  | .sample =>
    { s with phase := .streaming, descFlag := s.descFlag || s.params.descRecheck, buf := bs ++ s.buf.drop recordLen }
  | .event =>
    match decode .event bs with
    | .error _ => s
    | .ok i => { noItem s with pending := (actionOf i).toList ++ s.pending }
  | .command =>
    match decode .command bs with
    | .error _ => s
    | .ok i => { noItem s with pending := (actionOf i).toList ++ s.pending }

end Sys2Proof.Machine
end

