-- ==== Sys2Proof/Machine/Step.lean ====
section
/-!
DEFINITION. One step: a stream item that stands at the cursor runs; else the host's next action runs to completion
(46_session_control.md R205); else the block waits (70_reset_and_hazards.md R242).
DESIGN CHOICE, safe: that an item at the cursor runs first, and how a program comes to run (notes/assumptions/1.md).
-/

namespace Sys2Proof.Machine

def step (s : State) : Host.Outcome State Fault Refusal :=
  match fetch s with
  | .item i => mapNext (afterItem i) (exec i (beforeItem i s))
  | .action a rest => exec a.instr { s with pending := rest }
  | .nothing => .next s

/-- `s` with the table's word stored where `step` takes its next instruction. -/
def State.withFetchWord (s : State) (nbits w : Nat) : State :=
  match formatOfWidth nbits with
  | none => s
  | some f => placeBytes f (tableBytes f w) s

end Sys2Proof.Machine
end

