-- ==== Sys2Proof/Safety.lean ====
section
/-!
DEFINITION. What the claims are stated in: the invariant of 10_state.md R35 with the model's own consistency facts, what
it means that the observations only grow, the delivery of a stream in chunks, and what a consumer may see.
-/

namespace Sys2Proof.Machine

/-! ### The invariant, between two steps -/

/-- R35(a). -/
abbrev IdleIsFresh (s : State) : Prop :=
  s.phase = .idle → s.buf = [] ∧ s.pc = 0 ∧ s.descFlag = false ∧ s.seenStart = false ∧ s.curFrame = []

/-- R35(b): at most 6 bytes wait. -/
abbrev SynchronizingIsFresh (s : State) : Prop :=
  s.phase = .synchronizing →
    s.buf.length ≤ 6 ∧ s.pc = 0 ∧ s.descFlag = false ∧ s.seenStart = false ∧ s.curFrame = []

/-- R35(c): at most 4 bytes wait, or 6 while the descriptor check of `DESC_RECHECK = true` is still to be made (R135). -/
abbrev StreamingIsDrained (s : State) : Prop :=
  s.phase = .streaming → s.buf.length ≤ (if descPending s then 6 else 4)

/-- What `CLOSE` and the fault leave (R209, R224). -/
abbrev ClosedIsEmpty (s : State) : Prop :=
  s.phase = .closed → s.buf = [] ∧ s.seenStart = false ∧ s.curFrame = []

/-- R35(d): once a start is seen, the frame in progress holds a start-flagged sample. -/
abbrev StartIsHeld (s : State) : Prop :=
  s.seenStart = true → s.curFrame.any (fun r => r.startFlag) = true

/-- The fault closes the block (R224). -/
abbrev FaultCloses (s : State) : Prop := s.fault = .bufferGrowthFailure → s.phase = .closed

/-- `STRIDE` holds a legal value (R32). -/
abbrev StrideLegal (s : State) : Prop := s.stride ≠ 0

/-- The register `descDone` exists only under `DESC_RECHECK = true` (R27). -/
abbrev DescFlagOnlyUnderRecheck (s : State) : Prop := s.params.descRecheck = false → s.descFlag = false

/-- Neither storage exceeds its capacity (R65, R55). -/
abbrev WithinCapacity (s : State) : Prop :=
  s.params.bufCap.all (fun cap => decide (s.buf.length ≤ cap)) = true ∧
  s.params.frameCap.all (fun cap => decide (s.curFrame.length ≤ cap)) = true

/-- A `DecodedOutput` as R33 describes it. -/
def outputOk (d : DecodedOutput) : Bool :=
  decide (1 ≤ d.count) && d.angle.length == d.count && d.distance.length == d.count && d.quality.length == d.count
    && d.distance.all (fun x => decide (0 < x)) && d.quality.all fun q => decide (q.toNat < 64)

/-- Every emitted value has the form of R33, and the frame taps run in step (R166). -/
abbrev TracesAgree (s : State) : Prop :=
  s.out.all outputOk = true ∧ s.rawfTap.length = s.corfTap.length ∧ s.out.length ≤ s.corfTap.length

/-- The invariant of the machine between two steps. -/
structure Inv (s : State) : Prop where
  idle : IdleIsFresh s
  synchronizing : SynchronizingIsFresh s
  streaming : StreamingIsDrained s
  closed : ClosedIsEmpty s
  start : StartIsHeld s
  fault : FaultCloses s
  stride : StrideLegal s
  descFlag : DescFlagOnlyUnderRecheck s
  capacity : WithinCapacity s
  traces : TracesAgree s

/-! ### Observations -/

/-- The host's settings and the inputs still to come are the same in both states. -/
structure SameSettings (s t : State) : Prop where
  maxRange : t.maxRange = s.maxRange
  stride : t.stride = s.stride
  params : t.params = s.params
  pending : t.pending = s.pending

/-- What was observed in `s` is still the beginning of what was observed in `t` (R57). -/
structure ObservationsGrow (s t : State) : Prop where
  out : s.out <+: t.out
  smp : s.smpTap <+: t.smpTap
  rawf : s.rawfTap <+: t.rawfTap
  corf : s.corfTap <+: t.corfTap

/-- A consumer that drops frames sees a subsequence of the output trace (R57, R250). -/
def ConsumerMayReceive (s : State) (seen : List DecodedOutput) : Prop := seen.Sublist s.out

/-! ### Streams -/

/-- Delivery of a stream in chunks, one `APPEND` each. -/
def deliverAll : List (List Byte) → State → Host.Outcome State Fault Refusal
  | [], s => .next s
  | c :: cs, s =>
    match exec (.append c) s with
    | .next t => deliverAll cs t
    | .fault r => .fault r
    | .refused r => .refused r

/-- The frame buffer may hold more than `n` samples. -/
def RoomBeyond (n : Nat) (s : State) : Prop := ∀ cap, s.params.frameCap = some cap → n < cap

/-- What the frame buffer holds when the sample is appended (R160): nothing if a start-flagged sample completed the frame
(R161), else the frame in progress. -/
def frameAtAppend (r : RawSample) (s : State) : List RawSample :=
  if r.startFlag = true ∧ s.seenStart = true ∧ s.curFrame ≠ [] then [] else s.curFrame

/-- The `distRaw` of a frame's sample, 0 outside the frame. -/
def distAt (F : List RawSample) (i : Nat) : BitVec 16 := (F[i]?.map fun r => r.distRaw).getD 0

/-- The raw angle in degrees of a frame's sample, 0 outside the frame. -/
def angleAt (F : List RawSample) (i : Nat) : Rat := (F[i]?.map fun r => angleDeg r.angleRaw).getD 0

/-- `h` is the least index with a return (R174). -/
def IsFirstReturn (F : List RawSample) (h : Nat) : Prop := distAt F h ≠ 0 ∧ ∀ i, i < h → distAt F i = 0

/-- `t` is the greatest index with a return (R176). -/
def IsLastReturn (F : List RawSample) (t : Nat) : Prop := distAt F t ≠ 0 ∧ ∀ i, t < i → distAt F i = 0

end Sys2Proof.Machine
end

