-- ==== Sys2Proof/Certificates/Slice0/Obligations.lean ====
section
/-!
DEFINITION. What is claimed of the machine, each a proposition for the provers. A docstring names the rule of spec/ that a
statement formalises. "The spec's inference" and "the spec's decision" say that the spec marks the rule [derived] or
[decision], so that the statement's basis is derived.
-/

open Sys2Proof Sys2Proof.Machine

/-! ### Encoding -/

/-- R142: the fields of a window are the source's expressions over its bytes. -/
def Obligations.SampleFieldsFollowTheSourceExpressions : Prop :=
  ∀ w : Window,
    (decodeWindow w).angleRaw.toNat = ((w.w1.toNat >>> 1) ||| (w.w2.toNat <<< 7)) &&& 0x7FFF ∧
    (decodeWindow w).distRaw.toNat = w.w3.toNat ||| (w.w4.toNat <<< 8) ∧
    (decodeWindow w).quality.toNat = (w.w0.toNat >>> 2) &&& 0x3F ∧
    (decodeWindow w).startFlag = decide (w.w0.toNat &&& 1 ≠ 0)

/-- R141: a window is valid exactly when its two start bits differ and its check bit is 1, and nothing else of it
matters. -/
def Obligations.ValidityIsThreeBits : Prop :=
  (∀ w : Window, valid w = true ↔
    (w.w0.getLsbD 0 ≠ w.w0.getLsbD 1 ∧ w.w1.getLsbD 0 = true)) ∧
  (∀ w v : Window, w.w0.getLsbD 0 = v.w0.getLsbD 0 → w.w0.getLsbD 1 = v.w0.getLsbD 1 →
    w.w1.getLsbD 0 = v.w1.getLsbD 0 → valid w = valid v)

/-- R83, R85 (the word is the spec's decision D21): a 40-bit word is classified by `word & 0x103`, and the fields stand at
bits 7:2, 23:9 and 39:24. -/
def Obligations.FortyBitWordClassification : Prop :=
  ∀ v : BitVec 40, classify (Window.ofWord v) =
    if v &&& 0x103#40 = 0x101#40 then .smpS (v.extractLsb' 2 6) (v.extractLsb' 9 15) (v.extractLsb' 24 16)
    else if v &&& 0x103#40 = 0x102#40 then .smpN (v.extractLsb' 2 6) (v.extractLsb' 9 15) (v.extractLsb' 24 16)
    else .skip1 (Window.ofWord v)

/-- R94 (the spec's inference): `enc` is given by its byte formulas, a sample's window is valid and decodes to the sample,
and a valid window is the encoding of what it decodes to. -/
def Obligations.EncoderAndDecoderAreInverse : Prop :=
  (∀ r : RawSample,
    (enc r).w0.toNat = (r.quality.toNat <<< 2) ||| ((1 - r.startFlag.toNat) <<< 1) ||| r.startFlag.toNat ∧
    (enc r).w1.toNat = ((r.angleRaw.toNat &&& 0x7F) <<< 1) ||| 1 ∧
    (enc r).w2.toNat = (r.angleRaw.toNat >>> 7) &&& 0xFF ∧
    (enc r).w3.toNat = r.distRaw.toNat &&& 0xFF ∧
    (enc r).w4.toNat = (r.distRaw.toNat >>> 8) &&& 0xFF) ∧
  (∀ r : RawSample, valid (enc r) = true ∧ decodeWindow (enc r) = r) ∧
  (∀ w : Window, valid w = true → enc (decodeWindow w) = w)

/-- Decoding what a well-formed instruction encodes to gives it back, for every instruction and every operand. For the
four events that is a round trip through the model's own wire form (DESIGN CHOICE, log entry 4: R90 gives the events
codes and no layout); the stream items and the commands have the spec's encodings. -/
def Obligations.DecodeOfEncode : Prop :=
  ∀ i : Instr, i.wf = true → decode i.format (encode i) = .ok i

/-- Where every bit of the format counts, the bytes an instruction is decoded from are its encoding, and it is
well-formed. An event's code byte has six bits that no port carries, so the format EVENT is left out. -/
def Obligations.EncodeOfDecode : Prop :=
  ∀ (f : Format) (bs : List Byte) (i : Instr), f ≠ .event → decode f bs = .ok i →
    encode i = bs ∧ i.wf = true ∧ i.format = f

/-- A few words written out from the spec's encodings decode to the instruction they stand for (95_test_vectors.md
V1, V3, V5, V8a, V8d, 30_encoding.md R84, R92). The four words of the events are the model's choice (DESIGN CHOICE, log
entry 4): R90 gives the codes 00, 01, 10, 11, and that a code stands in a word of 8 bits, with an empty chunk or two
zero operands after it, is no rule of the spec. -/
def Obligations.WrittenOutWordsDecode : Prop :=
  decode .sample [0x01, 0x01, 0x00, 0x00, 0x00] = .ok (.smpS 0 0 0) ∧
  decode .sample [0xFD, 0xFF, 0xFF, 0xFF, 0xFF] = .ok (.smpS 63 32767 65535) ∧
  decode .sample [0xBE, 0x01, 0x2D, 0xA0, 0x0F] = .ok (.smpN 47 5760 4000) ∧
  decode .sample [0x00, 0x01, 0x00, 0x00, 0x00] = .ok (.skip1 ⟨0x00, 0x01, 0x00, 0x00, 0x00⟩) ∧
  decode .sample [0x01, 0x00, 0x00, 0x00, 0x00] = .ok (.skip1 ⟨0x01, 0x00, 0x00, 0x00, 0x00⟩) ∧
  decode .descriptor [0xA5, 0x5A, 0x05, 0x00, 0x00, 0x40, 0x81] = .ok (.desc 0x05 0x00 0x00 0x40 0x81) ∧
  decodeTableWord 8 0 = some (.append []) ∧ decodeTableWord 8 1 = some .reset ∧
  decodeTableWord 8 2 = some .close ∧ decodeTableWord 8 3 = some (.config 0 0) ∧
  decodeTableWord 16 0x20A5 = some .cmdScan ∧ decodeTableWord 16 0x25A5 = some .cmdStop

/-! ### The step -/

/-- A step runs the instruction that the bytes at the cursor decode to (R80): in `Streaming` the window's; while the
descriptor check is to be made and 7 bytes are there, the descriptor, followed by `phase <- Streaming`, or, where its
signature does not stand there, the window's after `phase <- Streaming` (R134). -/
def Obligations.StepRunsTheItemAtTheCursor : Prop :=
  (∀ (s : State) (w : Window) (rest : List Byte) (i : Instr), s.phase = .streaming → descPending s = false →
    s.buf = w.bytes ++ rest → decode .sample w.bytes = .ok i → step s = exec i s) ∧
  (∀ (s : State) (bs rest : List Byte) (i : Instr), (s.phase = .synchronizing ∨ s.phase = .streaming) →
    descPending s = true → s.buf = bs ++ rest → decode .descriptor bs = .ok i →
    step s = mapNext enterStreaming (exec i s)) ∧
  (∀ (s : State) (w : Window) (rest : List Byte) (i : Instr), (s.phase = .synchronizing ∨ s.phase = .streaming) →
    descPending s = true → s.buf = w.bytes ++ rest → 7 ≤ s.buf.length → (w.w0 ≠ 0xA5 ∨ w.w1 ≠ 0x5A) →
    decode .sample w.bytes = .ok i → step s = exec i (enterStreaming s))

/-- With no item at the cursor a step runs the host's next action, one event to completion (R205), and waits when there
is none (R242). -/
def Obligations.StepRunsTheHostsNextAction : Prop :=
  (∀ (s : State) (a : HostAction) (rest : List HostAction), fetchItem s = none → s.pending = a :: rest →
    step s = exec a.instr { s with pending := rest }) ∧
  (∀ s : State, fetchItem s = none → s.pending = [] → step s = .next s)

/-- "No behaviour of the block is `stuck`: every event has a defined step in every state, and every window has a
defined item" (93_implementation_defined.md, the spec's decisions): no step stops, in any state. -/
def Obligations.EveryStepAnswersANextState : Prop :=
  ∀ s : State, ∃ t, step s = .next t

/-! ### Reset and the invariant -/

/-- R37, R240 (the spec's decisions D11, D14, D15, D16): the state after power-on. -/
def Obligations.PowerOnState : Prop :=
  State.reset.phase = .idle ∧ State.reset.buf = [] ∧ State.reset.pc = 0 ∧ State.reset.seenStart = false ∧
  State.reset.curFrame = [] ∧ State.reset.fault = .none ∧ State.reset.maxRange.toNat = 12000 ∧
  State.reset.stride.toNat = 1 ∧ State.reset.out = [] ∧ descDone State.reset = false

/-- The invariant holds after power-on. -/
def Obligations.PowerOnMeetsTheInvariant : Prop := Inv State.reset

/-- R35 (the spec's inference) with the model's consistency facts: every step keeps the invariant, in both readings of
the descriptor check and with any capacities. -/
def Obligations.EveryStepKeepsTheInvariant : Prop :=
  ∀ s t : State, Inv s → step s = .next t → Inv t

/-! ### Stream items -/

/-- R133: `DESC` consumes seven bytes and does nothing else, whatever the five after the signature are; the same two
bytes at the head in `Streaming` are not a descriptor: their window's item drops one byte, and a pass goes on from the
byte after. For `DESC_RECHECK = false`, the reading in which R133 stands; the other reading is
`DescSetsItsFlagUnderRecheck`. -/
def Obligations.DescSkipsSevenBytes : Prop :=
  (∀ (t2 t3 t4 t5 t6 : Byte) (rest : List Byte) (s : State), s.params.descRecheck = false →
    s.phase = .synchronizing → s.buf = [0xA5, 0x5A, t2, t3, t4, t5, t6] ++ rest →
    exec (.desc t2 t3 t4 t5 t6) s = .next { s with buf := rest, pc := s.pc + 7 }) ∧
  (∀ (t2 t3 t4 : Byte) (rest : List Byte) (s : State), s.params.descRecheck = false →
    s.phase = .streaming → s.buf = [0xA5, 0x5A, t2, t3, t4] ++ rest →
    exec (classify ⟨0xA5, 0x5A, t2, t3, t4⟩) s =
      .next { s with buf := [0x5A, t2, t3, t4] ++ rest, pc := s.pc + 1 }) ∧
  (∀ (c rest : List Byte) (t2 t3 t4 : Byte) (s : State), s.params.descRecheck = false →
    s.phase = .streaming → bufOverflows c.length s = false → s.buf ++ c = [0xA5, 0x5A, t2, t3, t4] ++ rest →
    exec (.append c) s = exec (.append []) { s with buf := [0x5A, t2, t3, t4] ++ rest, pc := s.pc + 1 })

/-- R135 (the spec's decision D5, the other reading): under `DESC_RECHECK = true` `DESC` also sets `descDone`, in either
phase. -/
def Obligations.DescSetsItsFlagUnderRecheck : Prop :=
  ∀ (t2 t3 t4 t5 t6 : Byte) (rest : List Byte) (s : State), s.params.descRecheck = true → s.descFlag = false →
    (s.phase = .synchronizing ∨ s.phase = .streaming) → s.buf = [0xA5, 0x5A, t2, t3, t4, t5, t6] ++ rest →
    exec (.desc t2 t3 t4 t5 t6) s = .next { s with buf := rest, pc := s.pc + 7, descFlag := true }

/-- R143, R161, R163: `SMP.S` consumes its record, shows the sample, and either opens or goes on with the frame, or, when
a start was seen and the frame is not empty, completes it first: through the corrector and the filter to at most one
output, before the sample becomes the first of the next frame. Where the frame buffer has room. -/
def Obligations.SmpSTakesAStartSample : Prop :=
  (∀ (q : BitVec 6) (a : BitVec 15) (d : BitVec 16) (s : State), s.phase = .streaming → 5 ≤ s.buf.length →
    (s.seenStart = false ∨ s.curFrame = []) → RoomBeyond s.curFrame.length s →
    exec (.smpS q a d) s = .next
      { s with
        buf := s.buf.drop 5
        pc := s.pc + 5
        smpTap := s.smpTap ++ [⟨a, d, q, true⟩]
        curFrame := s.curFrame ++ [⟨a, d, q, true⟩]
        seenStart := true }) ∧
  (∀ (q : BitVec 6) (a : BitVec 15) (d : BitVec 16) (s : State), s.phase = .streaming → 5 ≤ s.buf.length →
    s.seenStart = true → s.curFrame ≠ [] → RoomBeyond 0 s →
    exec (.smpS q a d) s = .next
      { s with
        buf := s.buf.drop 5
        pc := s.pc + 5
        smpTap := s.smpTap ++ [⟨a, d, q, true⟩]
        rawfTap := s.rawfTap ++ [s.curFrame]
        corfTap := s.corfTap ++ [correct s.params s.curFrame]
        out := s.out ++ (if kept s.maxRange s.stride (correct s.params s.curFrame) = [] then []
          else [decodedOutput (kept s.maxRange s.stride (correct s.params s.curFrame))])
        curFrame := [⟨a, d, q, true⟩]
        seenStart := true })

/-- R144: `SMP.N` is the same with no start flag: the sample is appended, `seenStart` is untouched and no frame
completes. Where the frame buffer has room. -/
def Obligations.SmpNTakesASample : Prop :=
  ∀ (q : BitVec 6) (a : BitVec 15) (d : BitVec 16) (s : State), s.phase = .streaming → 5 ≤ s.buf.length →
    RoomBeyond s.curFrame.length s →
    exec (.smpN q a d) s = .next
      { s with
        buf := s.buf.drop 5
        pc := s.pc + 5
        smpTap := s.smpTap ++ [⟨a, d, q, false⟩]
        curFrame := s.curFrame ++ [⟨a, d, q, false⟩] }

/-- R55, R223(b), R224 (the spec's decisions D7, D15): with a finite `FRAME_CAP` reached, the append faults; the sample
has been consumed and shown and is lost. The spec's condition is `len(curFrame) = FRAME_CAP`; that a frame buffer longer
than its capacity, which no run reaches, is full too is DEDUCED (log entry 13). -/
def Obligations.FullFrameBufferFaults : Prop :=
  (∀ (q : BitVec 6) (a : BitVec 15) (d : BitVec 16) (cap : Nat) (s : State), s.phase = .streaming →
    5 ≤ s.buf.length → s.params.frameCap = some cap → cap ≤ s.curFrame.length →
    exec (.smpN q a d) s = .next
      { s with
        buf := [], pc := s.pc + 5, smpTap := s.smpTap ++ [⟨a, d, q, false⟩]
        curFrame := [], seenStart := false, fault := .bufferGrowthFailure, phase := .closed }) ∧
  (∀ (q : BitVec 6) (a : BitVec 15) (d : BitVec 16) (cap : Nat) (s : State), s.phase = .streaming →
    5 ≤ s.buf.length → s.params.frameCap = some cap → cap ≤ s.curFrame.length → s.seenStart = false →
    exec (.smpS q a d) s = .next
      { s with
        buf := [], pc := s.pc + 5, smpTap := s.smpTap ++ [⟨a, d, q, true⟩]
        curFrame := [], seenStart := false, fault := .bufferGrowthFailure, phase := .closed })

/-- R162: every decoded sample is appended, whatever its flag, distance or angle and whether or not a start was seen. The
old frame stands before it, and nothing does exactly when the sample completed that frame (R161), also where the frame
buffer was full. Where the frame buffer has room for it. -/
def Obligations.EveryDecodedSampleIsAppended : Prop :=
  ∀ (r : RawSample) (s : State), s.phase = .streaming → 5 ≤ s.buf.length →
    RoomBeyond (frameAtAppend r s).length s →
    ∃ t, exec (classify (enc r)) s = .next t ∧ t.curFrame = frameAtAppend r s ++ [r]

/-- R145: `SKIP1` discards one byte and leaves everything else; the next window overlaps this one in four bytes. -/
def Obligations.Skip1DropsOneByte : Prop :=
  ∀ (w : Window) (rest : List Byte) (s : State), s.phase = .streaming → s.buf = w.bytes ++ rest →
    exec (.skip1 w) s = .next { s with buf := [w.w1, w.w2, w.w3, w.w4] ++ rest, pc := s.pc + 1 }

/-- R80, R20, R113, R232: an item has its effect only where `phase` selects it and its bytes are there. That it STOPS
elsewhere, and under which names, is the model's choice (log entry 7). -/
def Obligations.ItemsStopWhereTheyDoNotStand : Prop :=
  ∀ (q : BitVec 6) (a : BitVec 15) (d : BitVec 16) (w : Window) (t2 t3 t4 t5 t6 : Byte) (s : State),
    (s.phase ≠ .streaming →
      exec (.smpS q a d) s = .fault .itemNotSelected ∧ exec (.smpN q a d) s = .fault .itemNotSelected ∧
      exec (.skip1 w) s = .fault .itemNotSelected) ∧
    (s.phase = .streaming → s.buf.length < 5 →
      exec (.smpS q a d) s = .fault .itemIncomplete ∧ exec (.smpN q a d) s = .fault .itemIncomplete ∧
      exec (.skip1 w) s = .fault .itemIncomplete) ∧
    (descAvailable s = false → exec (.desc t2 t3 t4 t5 t6) s = .fault .itemNotSelected) ∧
    (descAvailable s = true → s.buf.length < 7 → exec (.desc t2 t3 t4 t5 t6) s = .fault .itemIncomplete)

/-- The frame of the stream items `DESC`, `SMP.S`, `SMP.N`, `SKIP1` (R38, the spec's inference, and R232): no item
writes the host's settings; observations only grow; `DESC` and `SKIP1` touch neither the frame, nor `seenStart`, nor
`fault`, nor a tap, nor `out`, nor `phase`; and unless the block closes, every byte of the stream beyond the ones
consumed reads as before. -/
def Obligations.StreamItemsFrame : Prop :=
  ∀ (i : Instr) (s t : State), (i.format = .descriptor ∨ i.format = .sample) → exec i s = .next t →
    SameSettings s t ∧ ObservationsGrow s t ∧ s.pc ≤ t.pc ∧
    (t.phase = s.phase ∨ t.phase = .closed) ∧
    (i.format = .sample → t.descFlag = s.descFlag) ∧
    ((i.format = .descriptor ∨ ∃ w, i = .skip1 w) →
      t.curFrame = s.curFrame ∧ t.seenStart = s.seenStart ∧ t.fault = s.fault ∧ t.phase = s.phase ∧
      t.out = s.out ∧ t.smpTap = s.smpTap ∧ t.rawfTap = s.rawfTap ∧ t.corfTap = s.corfTap) ∧
    (t.phase ≠ .closed → ∀ addr n, t.pc ≤ addr → memRead addr n t = memRead addr n s)

/-! ### APPEND and the parse pass -/

/-- R131 (the spec's decision D5): while the check is to be made and fewer than 7 bytes are there, an `APPEND` adds its
bytes and nothing is decoded. -/
def Obligations.AppendHoldsBelowSevenBytes : Prop :=
  (∀ (c : List Byte) (s : State), s.params.descRecheck = false → (s.phase = .idle ∨ s.phase = .synchronizing) →
    bufOverflows c.length s = false → s.buf.length + c.length < 7 →
    exec (.append c) s = .next { s with phase := .synchronizing, buf := s.buf ++ c }) ∧
  (∀ (c : List Byte) (s : State), s.params.descRecheck = true → s.descFlag = false → s.phase ≠ .closed →
    bufOverflows c.length s = false → s.buf.length + c.length < 7 →
    exec (.append c) s = .next
      { s with phase := (if s.phase = .idle then .synchronizing else s.phase), buf := s.buf ++ c })

/-- R132 to R134 (the spec's decision D5): with 7 bytes there the head is compared once with `A5 5A`; the seven bytes are
skipped or none is, and either way the sample loop goes on in `Streaming` with what is left. For `DESC_RECHECK = false`;
the other reading is `DescriptorIsCheckedInEveryPassUnderRecheck`. -/
def Obligations.DescriptorIsCheckedOnceAtTheHead : Prop :=
  (∀ (c rest : List Byte) (t2 t3 t4 t5 t6 : Byte) (s : State), s.params.descRecheck = false →
    (s.phase = .idle ∨ s.phase = .synchronizing) → bufOverflows c.length s = false →
    s.buf ++ c = [0xA5, 0x5A, t2, t3, t4, t5, t6] ++ rest →
    exec (.append c) s = exec (.append []) { s with phase := .streaming, buf := rest, pc := s.pc + 7 }) ∧
  (∀ (c : List Byte) (s : State), s.params.descRecheck = false →
    (s.phase = .idle ∨ s.phase = .synchronizing) → bufOverflows c.length s = false →
    7 ≤ (s.buf ++ c).length → signatureAt (s.buf ++ c) = false →
    exec (.append c) s = exec (.append []) { s with phase := .streaming, buf := s.buf ++ c })

/-- R135 (the spec's decision D5, the other reading; log entry 12): while `descDone` is 0, every `APPEND` that has 7 bytes
compares the head with `A5 5A`. Found: seven bytes are dropped and `descDone` is set. Not found: `descDone` is 0 after
the pass as before it. Either way the phase becomes `Streaming` and the sample loop runs on what is left, down to four
bytes, as it runs once the check is over. -/
def Obligations.DescriptorIsCheckedInEveryPassUnderRecheck : Prop :=
  (∀ (c rest : List Byte) (t2 t3 t4 t5 t6 : Byte) (s : State), s.params.descRecheck = true → s.descFlag = false →
    s.phase ≠ .closed → bufOverflows c.length s = false →
    s.buf ++ c = [0xA5, 0x5A, t2, t3, t4, t5, t6] ++ rest →
    exec (.append c) s =
      exec (.append []) { s with phase := .streaming, buf := rest, pc := s.pc + 7, descFlag := true }) ∧
  (∀ (c : List Byte) (s : State), s.params.descRecheck = true → s.descFlag = false →
    s.phase ≠ .closed → bufOverflows c.length s = false →
    7 ≤ (s.buf ++ c).length → signatureAt (s.buf ++ c) = false →
    exec (.append c) s = mapNext (fun t => { t with descFlag := false })
      (exec (.append []) { s with phase := .streaming, buf := s.buf ++ c, descFlag := true }))

/-- R140: in `Streaming`, while 5 bytes are there, exactly one item runs, a function of the window alone, and the pass
goes on from the state it leaves. -/
def Obligations.AppendRunsOneItemPerWindow : Prop :=
  ∀ (c rest : List Byte) (w : Window) (s : State), s.phase = .streaming → descPending s = false →
    bufOverflows c.length s = false → s.buf ++ c = w.bytes ++ rest →
    ∃ t, exec (classify w) { s with buf := s.buf ++ c } = .next t ∧
      exec (.append c) s = exec (.append []) t

/-- R114, R131 (D5): a completed pass leaves at most 4 bytes in `Streaming` and at most 6 while the descriptor check is
to be made, unless a fault closed the block. -/
def Obligations.CompletedPassLeavesAShortTail : Prop :=
  ∀ (c : List Byte) (s t : State), s.phase ≠ .closed → exec (.append c) s = .next t →
    t.phase = .closed ∨ (t.phase = .synchronizing ∧ t.buf.length ≤ 6) ∨
    (t.phase = .streaming ∧ t.buf.length ≤ (if descPending t then 6 else 4))

/-- R65, R223(a), R224 (the spec's decisions D6, D15): an `APPEND` beyond a finite `BUF_CAP` appends nothing and takes
the fault. -/
def Obligations.AppendBeyondCapacityFaults : Prop :=
  ∀ (c : List Byte) (cap : Nat) (s : State), s.phase ≠ .closed → s.params.bufCap = some cap →
    cap < s.buf.length + c.length →
    exec (.append c) s = .next
      { s with
        fault := .bufferGrowthFailure, phase := .closed, buf := [], curFrame := [], seenStart := false }

/-- The completion and the frame of `APPEND` (R38, R232, R50): it always answers a next state; it changes neither the
host's settings nor, unless it takes the one fault, `fault`; observations only grow; the block is not `Idle` after it;
and unless the block is closed, `buf` is the session stream from the cursor on, the old bytes and the chunk after them. -/
def Obligations.AppendCompletes : Prop :=
  ∀ (c : List Byte) (s : State), ∃ t, exec (.append c) s = .next t ∧
    SameSettings s t ∧ ObservationsGrow s t ∧ t.phase ≠ .idle ∧ s.pc ≤ t.pc ∧
    (t.fault = s.fault ∨ t.fault = .bufferGrowthFailure ∧ t.phase = .closed) ∧
    (t.phase ≠ .closed → t.buf = (s.buf ++ c).drop (t.pc - s.pc) ∧
      t.pc + t.buf.length = s.pc + s.buf.length + c.length)

/-- R116 (the spec's inference): an empty chunk only moves `Idle` to `Synchronizing`. -/
def Obligations.EmptyChunkDoesNothing : Prop :=
  ∀ s : State, Inv s →
    (s.phase = .idle → exec (.append []) s = .next { s with phase := .synchronizing }) ∧
    (s.phase ≠ .idle → exec (.append []) s = .next s)

/-- R117 (the spec's inference): with unbounded storage and the spec's reading of the descriptor check, delivering a
stream in any chunks leaves the same state and the same observations as delivering it at once. -/
def Obligations.ChunkingDoesNotMatter : Prop :=
  ∀ (c : List Byte) (cs : List (List Byte)) (s : State), s.phase ≠ .closed → s.params.bufCap = none →
    s.params.frameCap = none → s.params.descRecheck = false →
    deliverAll (c :: cs) s = exec (.append (c :: cs).flatten) s

/-- R148 (the spec's inference): intact records from the cursor on decode to exactly those samples in order, and the
cursor stands after them. -/
def Obligations.IntactRecordsDecodeInOrder : Prop :=
  ∀ (rs : List RawSample) (s : State), s.phase = .streaming → descPending s = false → s.buf = [] →
    s.params.bufCap = none → s.params.frameCap = none →
    ∃ t, exec (.append (rs.map fun r => (enc r).bytes).flatten) s = .next t ∧
      t.smpTap = s.smpTap ++ rs ∧ t.pc = s.pc + 5 * rs.length ∧ t.buf = [] ∧ t.phase = .streaming

/-- R165 (the spec's inference): of the samples decoded while a stream is delivered, every start-flagged one closes a
frame, but for the first of the session. -/
def Obligations.FramesCompletedAreStartsLessOne : Prop :=
  ∀ (cs : List (List Byte)) (s t : State), (s.seenStart = true → s.curFrame ≠ []) → deliverAll cs s = .next t →
    ∃ new, t.smpTap = s.smpTap ++ new ∧
      t.rawfTap.length = s.rawfTap.length +
        (new.countP (fun r => r.startFlag) - (if s.seenStart then 0 else 1))

/-! ### Control events -/

/-- R207: `RESET` clears the session and nothing else, and emits nothing; in `Closed` it does nothing; in `Idle` it
changes nothing; two in a row equal one. -/
def Obligations.ResetClearsTheSession : Prop :=
  (∀ s : State, s.phase ≠ .closed →
    exec .reset s = .next
      { s with buf := [], pc := 0, phase := .idle, descFlag := false, seenStart := false, curFrame := [] }) ∧
  (∀ s : State, s.phase = .closed → exec .reset s = .next s) ∧
  (∀ s : State, Inv s → s.phase = .idle → exec .reset s = .next s) ∧
  (∀ s t : State, exec .reset s = .next t → exec .reset t = .next t)

/-- R61: nothing appended before a `RESET` can influence what comes after it: after it the state depends only on what
the session does not own. -/
def Obligations.ResetForgetsTheSession : Prop :=
  ∀ s₁ s₂ : State, s₁.phase ≠ .closed → s₂.phase ≠ .closed →
    s₁.fault = s₂.fault → s₁.maxRange = s₂.maxRange → s₁.stride = s₂.stride → s₁.out = s₂.out →
    s₁.smpTap = s₂.smpTap → s₁.rawfTap = s₂.rawfTap → s₁.corfTap = s₂.corfTap → s₁.params = s₂.params →
    s₁.pending = s₂.pending → exec .reset s₁ = exec .reset s₂

/-- R209 (the spec's decision D12): `CLOSE` closes the block and clears what it was doing; `pc`, the settings, `fault` and
`out` stay. -/
def Obligations.CloseShutsTheBlock : Prop :=
  (∀ s : State, s.phase ≠ .closed →
    exec .close s = .next { s with phase := .closed, buf := [], curFrame := [], seenStart := false }) ∧
  (∀ s : State, Inv s → exec .close s = .next { s with phase := .closed, buf := [], curFrame := [], seenStart := false })

/-- R212 (the spec's decision D10): `CONFIG` writes both registers, or neither when the stride is 0, and nothing else. -/
def Obligations.ConfigWritesBothOrNeither : Prop :=
  (∀ (m st : Half) (s : State), s.phase ≠ .closed → st ≠ 0 →
    exec (.config m st) s = .next { s with maxRange := m, stride := st }) ∧
  (∀ (m : Half) (s : State), exec (.config m 0) s = .next s) ∧
  (∀ (m st : Half) (s : State), s.phase = .closed → exec (.config m st) s = .next s)

/-- R225: "Every event in `Closed` is dropped without any change of state or output". -/
def Obligations.ClosedIgnoresEveryEvent : Prop :=
  ∀ (c : List Byte) (m st : Half) (s : State), s.phase = .closed →
    exec (.append c) s = .next s ∧ exec .reset s = .next s ∧ exec .close s = .next s ∧
    exec (.config m st) s = .next s

/-- R210 (the spec's decision D12): `Closed` is absorbing: a step only takes the host's next action and drops it. -/
def Obligations.ClosedIsAbsorbing : Prop :=
  ∀ s : State, s.phase = .closed → step s = .next { s with pending := s.pending.tail }

/-- R206 (the spec's decisions D4, D12): the phase machine, for a block without a fault. -/
def Obligations.PhaseTable : Prop :=
  ∀ (c : List Byte) (m st : Half) (s : State), s.params.descRecheck = false →
    (∀ t, exec (.append c) s = .next t → s.fault = .none →
      (t.fault ≠ .none → t.phase = .closed) ∧
      (t.fault = .none → t.phase =
        match s.phase with
        | .closed => .closed
        | .streaming => .streaming
        | .idle => if s.buf.length + c.length < 7 then .synchronizing else .streaming
        | .synchronizing => if s.buf.length + c.length < 7 then .synchronizing else .streaming)) ∧
    (∀ t, exec .reset s = .next t → t.phase = if s.phase = .closed then .closed else .idle) ∧
    (∀ t, exec .close s = .next t → t.phase = .closed) ∧
    (∀ t, exec (.config m st) s = .next t → t.phase = s.phase)

/-- R92 (that a command leaves the block unchanged is deduced, log entry 5): start-scan is `A5 20`, stop-scan `A5 25`, and
the block, which neither sends nor decodes them, goes on unchanged. -/
def Obligations.CommandsPassTheBlockBy : Prop :=
  ∀ s : State, encode .cmdScan = [0xA5, 0x20] ∧ encode .cmdStop = [0xA5, 0x25] ∧
    exec .cmdScan s = .next s ∧ exec .cmdStop s = .next s

/-- R228 (the spec's decision D17): of the actions presented at once all are taken, after those already there: first every
`CLOSE`, then every `RESET`, then every `CONFIG`, then every `APPEND`. That a command, which is no event of the block,
comes after them is the model's choice (log entry 6). -/
def Obligations.SimultaneousEventsAreRanked : Prop :=
  ∀ (batch : List HostAction) (s : State), ∃ closes resets configs appends commands : List HostAction,
    present batch s =
      { s with pending := s.pending ++ (closes ++ resets ++ configs ++ appends ++ commands) } ∧
    (closes ++ resets ++ configs ++ appends ++ commands).Perm batch ∧
    (∀ a ∈ closes, a = .close) ∧ (∀ a ∈ resets, a = .reset) ∧ (∀ a ∈ configs, ∃ m st, a = .config m st) ∧
    (∀ a ∈ appends, ∃ c, a = .append c) ∧ (∀ a ∈ commands, a = .sendScan ∨ a = .sendStop)

/-! ### Faults and whole-machine rules -/

/-- R30, R230 (the spec's inference): no step clears `fault`, and a step that sets it closes the block and clears the
session. -/
def Obligations.FaultIsStickyAndCloses : Prop :=
  ∀ s t : State, step s = .next t →
    (s.fault = .bufferGrowthFailure → t.fault = .bufferGrowthFailure) ∧
    (t.fault ≠ s.fault → t.phase = .closed ∧ t.buf = [] ∧ t.curFrame = [] ∧ t.seenStart = false)

/-- R33, R57: what was emitted stays emitted. That the taps are kept as traces is the model's choice (DESIGN CHOICE, log
entry 2: R36 has them as outputs and not state), and so is that the parameters of R7 stand in the state, where no step
changes them (log entry 3). -/
def Obligations.ObservationsOnlyGrow : Prop :=
  ∀ s t : State, step s = .next t → ObservationsGrow s t ∧ t.params = s.params

/-- R232: the settings are changed by the host's `CONFIG` alone, and `Closed` is left by nothing. -/
def Obligations.OnlyConfigChangesTheSettings : Prop :=
  ∀ s t : State, step s = .next t →
    (s.phase = .closed → t.phase = .closed) ∧
    ((t.maxRange ≠ s.maxRange ∨ t.stride ≠ s.stride) →
      ∃ m st, s.pending = .config m st :: t.pending ∧ t.maxRange = m ∧ t.stride = st ∧ st ≠ 0)

/-! ### The corrector -/

/-- R190, R191: the two scalings and their ranges. -/
def Obligations.ScalingsAreExact : Prop :=
  (∀ a : BitVec 15, angleDeg a * 64 = (a.toNat : Rat) ∧ 0 ≤ angleDeg a ∧ angleDeg a ≤ 32767 / 64) ∧
  (∀ d : BitVec 16, distanceMm d * 4 = (d.toNat : Rat) ∧ 0 ≤ distanceMm d ∧ distanceMm d ≤ 65535 / 4 ∧
    (distanceMm d = 0 ↔ d = 0))

/-- R171 (its laws are the spec's inference): in exact arithmetic `wrap360(x)` is the one value in [0, 360) that differs
from `x` by a multiple of 360, with the laws and the source's values. -/
def Obligations.WrapIsTheRemainderInATurn : Prop :=
  (∀ x : Rat, 0 ≤ wrap360 .rational x ∧ wrap360 .rational x < 360 ∧
    ∃ m : Int, x - wrap360 .rational x = 360 * (m : Rat)) ∧
  (∀ x y : Rat, 0 ≤ y → y < 360 → (∃ m : Int, x - y = 360 * (m : Rat)) → wrap360 .rational x = y) ∧
  (∀ x y : Rat, wrap360 .rational (wrap360 .rational x + y) = wrap360 .rational (x + y)) ∧
  wrap360 .rational (-10) = 350 ∧ wrap360 .rational 370 = 10 ∧ wrap360 .rational 360 = 0

/-- R182 (the spec's decision D8): in the floating-point formats too the result of `wrap360` lies in [0, 360). -/
def Obligations.WrapStaysInATurnWhenRounded : Prop :=
  ∀ (fmt : NumFormat) (x : Rat), 0 ≤ wrap360 fmt x ∧ wrap360 fmt x < 360

/-- R173: a frame without any return is returned unmodified, in arrival order with its raw angles. -/
def Obligations.DegenerateFrameIsReturnedUnmodified : Prop :=
  ∀ (p : Params) (F : List RawSample), (∀ r ∈ F, r.distRaw = 0) → correct p F = F.map toCor

/-- R178: the sort is a stable sort by ascending angle, and a corrected frame that is not degenerate is sorted. -/
def Obligations.CorrectedFrameIsStablySorted : Prop :=
  (∀ C : List CorSample,
    (sortByAng C).Perm C ∧ (sortByAng C).Pairwise (fun a b => a.ang ≤ b.ang) ∧
    ∀ x : Rat, (sortByAng C).filter (fun c => c.ang = x) = C.filter (fun c => c.ang = x)) ∧
  (∀ (p : Params) (F : List RawSample), (∃ r ∈ F, r.distRaw ≠ 0) →
    correct p F = sortByAng (retune p (F.map toCor)))

/-- R180 (the spec's inference), with R177's other reading: in exact arithmetic the three rewriting steps give the closed
forms. -/
def Obligations.RewrittenAnglesHaveClosedForms : Prop :=
  ∀ (p : Params) (F : List RawSample) (h t : Nat), p.num = .rational → IsFirstReturn F h → IsLastReturn F t →
    (retune p (F.map toCor)).length = F.length ∧
    ∀ i, i < F.length →
      ((retune p (F.map toCor))[i]?.map fun c => c.ang) = some (
        if distAt F i ≠ 0 then angleAt F i
        else if i < h then wrap360 .rational (angleAt F h - ((h : Rat) - (i : Rat)) * (360 / (F.length : Rat)))
        else if t < i ∧ p.fillScope = .interior then
          wrap360 .rational (angleAt F t + ((i : Rat) - (t : Rat)) * (360 / (F.length : Rat)))
        else wrap360 .rational (angleAt F h + ((i : Rat) - (h : Rat)) * (360 / (F.length : Rat))))

/-- R179 (the spec's inference): for every frame and every parameter value, a corrected frame is a rearrangement of the
samples in which distance, quality and start flag are kept, the angle of a sample with a return is its raw angle, and a
rewritten angle lies in [0, 360). -/
def Obligations.CorrectorPreservesSamples : Prop :=
  ∀ (p : Params) (F : List RawSample), ∃ C : List CorSample, (correct p F).Perm C ∧ C.length = F.length ∧
    ∀ (i : Nat) (r : RawSample) (c : CorSample), F[i]? = some r → C[i]? = some c →
      c.distRaw = r.distRaw ∧ c.quality = r.quality ∧ c.startFlag = r.startFlag ∧
      (r.distRaw ≠ 0 → c.ang = angleDeg r.angleRaw) ∧
      (r.distRaw = 0 → (∃ v ∈ F, v.distRaw ≠ 0) → 0 ≤ c.ang ∧ c.ang < 360)

/-- R183 (the spec's inference from the source's property): an ascending frame with every distance positive is returned as
it is; with every distance positive the result is the stable sort of the raw angles. -/
def Obligations.AscendIsIdempotentOnFullFrames : Prop :=
  ∀ (p : Params) (F : List RawSample), (∀ r ∈ F, r.distRaw ≠ 0) →
    correct p F = sortByAng (F.map toCor) ∧
    (F.Pairwise (fun a b => a.angleRaw.toNat ≤ b.angleRaw.toNat) → correct p F = F.map toCor)

/-- R181 (the spec's inference): the corrector in integer units of `1/(64·n)` degree gives the same frame. -/
def Obligations.IntegerCorrectorAgrees : Prop :=
  ∀ (p : Params) (F : List RawSample), p.num = .rational → p.fillScope = .interior →
    correct p F = (correctUnits F).map (ofUnits F.length)

/-! ### The filter -/

/-- R195: a visited sample is kept exactly when `0 < distanceMm < MAXRANGE`; a distance equal to `MAXRANGE` is
dropped. -/
def Obligations.RangeTestIsAnOpenInterval : Prop :=
  ∀ (m : Half) (c : CorSample),
    (inRange m c = true ↔ 0 < distanceMm c.distRaw ∧ distanceMm c.distRaw < (m.toNat : Rat)) ∧
    (distanceMm c.distRaw = (m.toNat : Rat) → inRange m c = false)

/-- R200 (the spec's inference): the range test in quarter millimetres, with its corner values. -/
def Obligations.RangeTestInQuarterMillimetres : Prop :=
  (∀ (m : Half) (c : CorSample),
    inRange m c = true ↔ c.distRaw ≠ 0 ∧ c.distRaw.toNat < 4 * m.toNat) ∧
  (∀ c : CorSample, inRange 0 c = false) ∧
  (∀ (m : Half) (c : CorSample), 16384 ≤ m.toNat → (inRange m c = true ↔ c.distRaw ≠ 0)) ∧
  (∀ c : CorSample, 48000 ≤ c.distRaw.toNat → inRange maxRangeReset c = false)

/-- R194: the indices visited are `0, STRIDE, 2·STRIDE, ...`; with `STRIDE = 1` every sample is, with `STRIDE ≥ len(C)`
only the first; the stride is applied before the range test. -/
def Obligations.FilterVisitsEveryStridethPosition : Prop :=
  (∀ (st : Nat) (C : List CorSample) (j : Nat), st ≠ 0 → (visited st C)[j]? = C[j * st]?) ∧
  (∀ C : List CorSample, visited 1 C = C) ∧
  (∀ (st : Nat) (C : List CorSample), st ≠ 0 → C.length ≤ st → visited st C = C.take 1) ∧
  (∀ (m st : Half) (C : List CorSample), kept m st C = (visited st.toNat C).filter (inRange m))

/-- R198(a) to (d) (the spec's inference): what every emitted `DecodedOutput` satisfies, for every frame and every
parameter value. -/
def Obligations.EmittedOutputsSatisfyTheirBounds : Prop :=
  ∀ (p : Params) (F : List RawSample) (m st : Half), st ≠ 0 → kept m st (correct p F) ≠ [] →
    outputOk (decodedOutput (kept m st (correct p F))) = true ∧
    (decodedOutput (kept m st (correct p F))).count * st.toNat < F.length + st.toNat ∧
    (∀ x ∈ (decodedOutput (kept m st (correct p F))).distance, 0 < x ∧ x < (m.toNat : Rat)) ∧
    (∀ x ∈ (decodedOutput (kept m st (correct p F))).angle,
      ∃ r ∈ F, r.distRaw ≠ 0 ∧ x = angleDeg r.angleRaw) ∧
    (decodedOutput (kept m st (correct p F))).angle.Pairwise (fun x y => x ≤ y)

/-- R198(c), (e) (the spec's inference): with `STRIDE = 1` what is emitted depends neither on `NUM` nor on `FILL_SCOPE`. -/
def Obligations.OutputIndependentOfNumberFormat : Prop :=
  ∀ (p p' : Params) (F : List RawSample) (m : Half), kept m 1 (correct p F) = kept m 1 (correct p' F)

/-- R222: a degenerate frame completes without a fault and without output, and passes the corrector uncorrected. -/
def Obligations.DegenerateFrameEmitsNothing : Prop :=
  ∀ (q : BitVec 6) (a : BitVec 15) (d : BitVec 16) (s : State), s.phase = .streaming → 5 ≤ s.buf.length →
    s.seenStart = true → s.curFrame ≠ [] → (∀ r ∈ s.curFrame, r.distRaw = 0) → RoomBeyond 0 s →
    ∃ t, exec (.smpS q a d) s = .next t ∧ t.out = s.out ∧ t.fault = s.fault ∧
      t.rawfTap = s.rawfTap ++ [s.curFrame] ∧ t.corfTap = s.corfTap ++ [s.curFrame.map toCor]
end

