-- ==== Sys2Proof/Laws/Corrector.lean ====
section
/-!
SUPPORT. The first facts of the corrector's and the filter's functions: lengths, and what a step cannot touch.
-/

namespace Sys2Proof.Machine

@[simp] theorem tuneLeading_length (f : Rat → Rat) (C : List CorSample) : (tuneLeading f C).length = C.length := by
  induction C with
  | nil => rfl
  | cons c cs ih =>
    unfold tuneLeading
    split
    · rfl
    · split
      · rename_i h; simp [h] at ih; simp [← ih]
      · rename_i h; simp [h] at ih; simp [← ih]

@[simp] theorem headTune_length (fmt : NumFormat) (inc : Rat) (C : List CorSample) :
    (headTune fmt inc C).length = C.length := by simp [headTune]

@[simp] theorem tailTune_length (fmt : NumFormat) (inc : Rat) (C : List CorSample) :
    (tailTune fmt inc C).length = C.length := by simp [tailTune]

@[simp] theorem interiorFill_length (fmt : NumFormat) (scope : FillScope) (inc : Rat) (C : List CorSample) :
    (interiorFill fmt scope inc C).length = C.length := by
  cases C <;> simp [interiorFill]

@[simp] theorem retune_length (p : Params) (C : List CorSample) : (retune p C).length = C.length := by simp [retune]

@[simp] theorem sortByAng_length (C : List CorSample) : (sortByAng C).length = C.length :=
  (List.perm_insertionSort _ C).length_eq

/-- The corrector neither drops nor adds samples. -/
@[simp] theorem correct_length (p : Params) (F : List RawSample) : (correct p F).length = F.length := by
  simp only [correct]
  split <;> simp

/-- On the rationals an operation is not rounded (R10). -/
@[simp] theorem fl_rational (x : Rat) : fl .rational x = x := rfl

end Sys2Proof.Machine
end

