-- ==== Sys2Proof/Laws/State.lean ====
section
/-!
SUPPORT. What each named update leaves in each field of State, one lemma per field and update, so that no later proof
unfolds a record update.
-/

namespace Sys2Proof.Machine

variable (s : State)

/-! ### `consume` -/

@[simp] theorem consume_phase (k : Nat) : (consume k s).phase = s.phase := rfl
@[simp] theorem consume_buf (k : Nat) : (consume k s).buf = s.buf.drop k := rfl
@[simp] theorem consume_pc (k : Nat) : (consume k s).pc = s.pc + k := rfl
@[simp] theorem consume_descFlag (k : Nat) : (consume k s).descFlag = s.descFlag := rfl
@[simp] theorem consume_seenStart (k : Nat) : (consume k s).seenStart = s.seenStart := rfl
@[simp] theorem consume_curFrame (k : Nat) : (consume k s).curFrame = s.curFrame := rfl
@[simp] theorem consume_fault (k : Nat) : (consume k s).fault = s.fault := rfl
@[simp] theorem consume_maxRange (k : Nat) : (consume k s).maxRange = s.maxRange := rfl
@[simp] theorem consume_stride (k : Nat) : (consume k s).stride = s.stride := rfl
@[simp] theorem consume_out (k : Nat) : (consume k s).out = s.out := rfl
@[simp] theorem consume_smpTap (k : Nat) : (consume k s).smpTap = s.smpTap := rfl
@[simp] theorem consume_rawfTap (k : Nat) : (consume k s).rawfTap = s.rawfTap := rfl
@[simp] theorem consume_corfTap (k : Nat) : (consume k s).corfTap = s.corfTap := rfl
@[simp] theorem consume_params (k : Nat) : (consume k s).params = s.params := rfl
@[simp] theorem consume_pending (k : Nat) : (consume k s).pending = s.pending := rfl

/-! ### `appendBytes` -/

@[simp] theorem appendBytes_phase (bs : List Byte) : (appendBytes bs s).phase = s.phase := rfl
@[simp] theorem appendBytes_buf (bs : List Byte) : (appendBytes bs s).buf = s.buf ++ bs := rfl
@[simp] theorem appendBytes_pc (bs : List Byte) : (appendBytes bs s).pc = s.pc := rfl
@[simp] theorem appendBytes_descFlag (bs : List Byte) : (appendBytes bs s).descFlag = s.descFlag := rfl
@[simp] theorem appendBytes_seenStart (bs : List Byte) : (appendBytes bs s).seenStart = s.seenStart := rfl
@[simp] theorem appendBytes_curFrame (bs : List Byte) : (appendBytes bs s).curFrame = s.curFrame := rfl
@[simp] theorem appendBytes_fault (bs : List Byte) : (appendBytes bs s).fault = s.fault := rfl
@[simp] theorem appendBytes_maxRange (bs : List Byte) : (appendBytes bs s).maxRange = s.maxRange := rfl
@[simp] theorem appendBytes_stride (bs : List Byte) : (appendBytes bs s).stride = s.stride := rfl
@[simp] theorem appendBytes_out (bs : List Byte) : (appendBytes bs s).out = s.out := rfl
@[simp] theorem appendBytes_smpTap (bs : List Byte) : (appendBytes bs s).smpTap = s.smpTap := rfl
@[simp] theorem appendBytes_rawfTap (bs : List Byte) : (appendBytes bs s).rawfTap = s.rawfTap := rfl
@[simp] theorem appendBytes_corfTap (bs : List Byte) : (appendBytes bs s).corfTap = s.corfTap := rfl
@[simp] theorem appendBytes_params (bs : List Byte) : (appendBytes bs s).params = s.params := rfl
@[simp] theorem appendBytes_pending (bs : List Byte) : (appendBytes bs s).pending = s.pending := rfl

/-! ### `appendSample` -/

@[simp] theorem appendSample_phase (r : RawSample) : (appendSample r s).phase = s.phase := rfl
@[simp] theorem appendSample_buf (r : RawSample) : (appendSample r s).buf = s.buf := rfl
@[simp] theorem appendSample_pc (r : RawSample) : (appendSample r s).pc = s.pc := rfl
@[simp] theorem appendSample_descFlag (r : RawSample) : (appendSample r s).descFlag = s.descFlag := rfl
@[simp] theorem appendSample_seenStart (r : RawSample) : (appendSample r s).seenStart = s.seenStart := rfl
@[simp] theorem appendSample_curFrame (r : RawSample) : (appendSample r s).curFrame = s.curFrame ++ [r] := rfl
@[simp] theorem appendSample_fault (r : RawSample) : (appendSample r s).fault = s.fault := rfl
@[simp] theorem appendSample_maxRange (r : RawSample) : (appendSample r s).maxRange = s.maxRange := rfl
@[simp] theorem appendSample_stride (r : RawSample) : (appendSample r s).stride = s.stride := rfl
@[simp] theorem appendSample_out (r : RawSample) : (appendSample r s).out = s.out := rfl
@[simp] theorem appendSample_smpTap (r : RawSample) : (appendSample r s).smpTap = s.smpTap := rfl
@[simp] theorem appendSample_rawfTap (r : RawSample) : (appendSample r s).rawfTap = s.rawfTap := rfl
@[simp] theorem appendSample_corfTap (r : RawSample) : (appendSample r s).corfTap = s.corfTap := rfl
@[simp] theorem appendSample_params (r : RawSample) : (appendSample r s).params = s.params := rfl
@[simp] theorem appendSample_pending (r : RawSample) : (appendSample r s).pending = s.pending := rfl

/-! ### `clearFrame` -/

@[simp] theorem clearFrame_phase : (clearFrame s).phase = s.phase := rfl
@[simp] theorem clearFrame_buf : (clearFrame s).buf = s.buf := rfl
@[simp] theorem clearFrame_pc : (clearFrame s).pc = s.pc := rfl
@[simp] theorem clearFrame_descFlag : (clearFrame s).descFlag = s.descFlag := rfl
@[simp] theorem clearFrame_seenStart : (clearFrame s).seenStart = s.seenStart := rfl
@[simp] theorem clearFrame_curFrame : (clearFrame s).curFrame = [] := rfl
@[simp] theorem clearFrame_fault : (clearFrame s).fault = s.fault := rfl
@[simp] theorem clearFrame_maxRange : (clearFrame s).maxRange = s.maxRange := rfl
@[simp] theorem clearFrame_stride : (clearFrame s).stride = s.stride := rfl
@[simp] theorem clearFrame_out : (clearFrame s).out = s.out := rfl
@[simp] theorem clearFrame_smpTap : (clearFrame s).smpTap = s.smpTap := rfl
@[simp] theorem clearFrame_rawfTap : (clearFrame s).rawfTap = s.rawfTap := rfl
@[simp] theorem clearFrame_corfTap : (clearFrame s).corfTap = s.corfTap := rfl
@[simp] theorem clearFrame_params : (clearFrame s).params = s.params := rfl
@[simp] theorem clearFrame_pending : (clearFrame s).pending = s.pending := rfl

/-! ### `noteStart` -/

@[simp] theorem noteStart_phase (b : Bool) : (noteStart b s).phase = s.phase := rfl
@[simp] theorem noteStart_buf (b : Bool) : (noteStart b s).buf = s.buf := rfl
@[simp] theorem noteStart_pc (b : Bool) : (noteStart b s).pc = s.pc := rfl
@[simp] theorem noteStart_descFlag (b : Bool) : (noteStart b s).descFlag = s.descFlag := rfl
@[simp] theorem noteStart_seenStart (b : Bool) : (noteStart b s).seenStart = (s.seenStart || b) := rfl
@[simp] theorem noteStart_curFrame (b : Bool) : (noteStart b s).curFrame = s.curFrame := rfl
@[simp] theorem noteStart_fault (b : Bool) : (noteStart b s).fault = s.fault := rfl
@[simp] theorem noteStart_maxRange (b : Bool) : (noteStart b s).maxRange = s.maxRange := rfl
@[simp] theorem noteStart_stride (b : Bool) : (noteStart b s).stride = s.stride := rfl
@[simp] theorem noteStart_out (b : Bool) : (noteStart b s).out = s.out := rfl
@[simp] theorem noteStart_smpTap (b : Bool) : (noteStart b s).smpTap = s.smpTap := rfl
@[simp] theorem noteStart_rawfTap (b : Bool) : (noteStart b s).rawfTap = s.rawfTap := rfl
@[simp] theorem noteStart_corfTap (b : Bool) : (noteStart b s).corfTap = s.corfTap := rfl
@[simp] theorem noteStart_params (b : Bool) : (noteStart b s).params = s.params := rfl
@[simp] theorem noteStart_pending (b : Bool) : (noteStart b s).pending = s.pending := rfl

/-! ### `emitOut` -/

@[simp] theorem emitOut_phase (d : DecodedOutput) : (emitOut d s).phase = s.phase := rfl
@[simp] theorem emitOut_buf (d : DecodedOutput) : (emitOut d s).buf = s.buf := rfl
@[simp] theorem emitOut_pc (d : DecodedOutput) : (emitOut d s).pc = s.pc := rfl
@[simp] theorem emitOut_descFlag (d : DecodedOutput) : (emitOut d s).descFlag = s.descFlag := rfl
@[simp] theorem emitOut_seenStart (d : DecodedOutput) : (emitOut d s).seenStart = s.seenStart := rfl
@[simp] theorem emitOut_curFrame (d : DecodedOutput) : (emitOut d s).curFrame = s.curFrame := rfl
@[simp] theorem emitOut_fault (d : DecodedOutput) : (emitOut d s).fault = s.fault := rfl
@[simp] theorem emitOut_maxRange (d : DecodedOutput) : (emitOut d s).maxRange = s.maxRange := rfl
@[simp] theorem emitOut_stride (d : DecodedOutput) : (emitOut d s).stride = s.stride := rfl
@[simp] theorem emitOut_out (d : DecodedOutput) : (emitOut d s).out = s.out ++ [d] := rfl
@[simp] theorem emitOut_smpTap (d : DecodedOutput) : (emitOut d s).smpTap = s.smpTap := rfl
@[simp] theorem emitOut_rawfTap (d : DecodedOutput) : (emitOut d s).rawfTap = s.rawfTap := rfl
@[simp] theorem emitOut_corfTap (d : DecodedOutput) : (emitOut d s).corfTap = s.corfTap := rfl
@[simp] theorem emitOut_params (d : DecodedOutput) : (emitOut d s).params = s.params := rfl
@[simp] theorem emitOut_pending (d : DecodedOutput) : (emitOut d s).pending = s.pending := rfl

/-! ### `emitSmp` -/

@[simp] theorem emitSmp_phase (r : RawSample) : (emitSmp r s).phase = s.phase := rfl
@[simp] theorem emitSmp_buf (r : RawSample) : (emitSmp r s).buf = s.buf := rfl
@[simp] theorem emitSmp_pc (r : RawSample) : (emitSmp r s).pc = s.pc := rfl
@[simp] theorem emitSmp_descFlag (r : RawSample) : (emitSmp r s).descFlag = s.descFlag := rfl
@[simp] theorem emitSmp_seenStart (r : RawSample) : (emitSmp r s).seenStart = s.seenStart := rfl
@[simp] theorem emitSmp_curFrame (r : RawSample) : (emitSmp r s).curFrame = s.curFrame := rfl
@[simp] theorem emitSmp_fault (r : RawSample) : (emitSmp r s).fault = s.fault := rfl
@[simp] theorem emitSmp_maxRange (r : RawSample) : (emitSmp r s).maxRange = s.maxRange := rfl
@[simp] theorem emitSmp_stride (r : RawSample) : (emitSmp r s).stride = s.stride := rfl
@[simp] theorem emitSmp_out (r : RawSample) : (emitSmp r s).out = s.out := rfl
@[simp] theorem emitSmp_smpTap (r : RawSample) : (emitSmp r s).smpTap = s.smpTap ++ [r] := rfl
@[simp] theorem emitSmp_rawfTap (r : RawSample) : (emitSmp r s).rawfTap = s.rawfTap := rfl
@[simp] theorem emitSmp_corfTap (r : RawSample) : (emitSmp r s).corfTap = s.corfTap := rfl
@[simp] theorem emitSmp_params (r : RawSample) : (emitSmp r s).params = s.params := rfl
@[simp] theorem emitSmp_pending (r : RawSample) : (emitSmp r s).pending = s.pending := rfl

/-! ### `emitRawf` -/

@[simp] theorem emitRawf_phase (F : List RawSample) : (emitRawf F s).phase = s.phase := rfl
@[simp] theorem emitRawf_buf (F : List RawSample) : (emitRawf F s).buf = s.buf := rfl
@[simp] theorem emitRawf_pc (F : List RawSample) : (emitRawf F s).pc = s.pc := rfl
@[simp] theorem emitRawf_descFlag (F : List RawSample) : (emitRawf F s).descFlag = s.descFlag := rfl
@[simp] theorem emitRawf_seenStart (F : List RawSample) : (emitRawf F s).seenStart = s.seenStart := rfl
@[simp] theorem emitRawf_curFrame (F : List RawSample) : (emitRawf F s).curFrame = s.curFrame := rfl
@[simp] theorem emitRawf_fault (F : List RawSample) : (emitRawf F s).fault = s.fault := rfl
@[simp] theorem emitRawf_maxRange (F : List RawSample) : (emitRawf F s).maxRange = s.maxRange := rfl
@[simp] theorem emitRawf_stride (F : List RawSample) : (emitRawf F s).stride = s.stride := rfl
@[simp] theorem emitRawf_out (F : List RawSample) : (emitRawf F s).out = s.out := rfl
@[simp] theorem emitRawf_smpTap (F : List RawSample) : (emitRawf F s).smpTap = s.smpTap := rfl
@[simp] theorem emitRawf_rawfTap (F : List RawSample) : (emitRawf F s).rawfTap = s.rawfTap ++ [F] := rfl
@[simp] theorem emitRawf_corfTap (F : List RawSample) : (emitRawf F s).corfTap = s.corfTap := rfl
@[simp] theorem emitRawf_params (F : List RawSample) : (emitRawf F s).params = s.params := rfl
@[simp] theorem emitRawf_pending (F : List RawSample) : (emitRawf F s).pending = s.pending := rfl

/-! ### `emitCorf` -/

@[simp] theorem emitCorf_phase (C : List CorSample) : (emitCorf C s).phase = s.phase := rfl
@[simp] theorem emitCorf_buf (C : List CorSample) : (emitCorf C s).buf = s.buf := rfl
@[simp] theorem emitCorf_pc (C : List CorSample) : (emitCorf C s).pc = s.pc := rfl
@[simp] theorem emitCorf_descFlag (C : List CorSample) : (emitCorf C s).descFlag = s.descFlag := rfl
@[simp] theorem emitCorf_seenStart (C : List CorSample) : (emitCorf C s).seenStart = s.seenStart := rfl
@[simp] theorem emitCorf_curFrame (C : List CorSample) : (emitCorf C s).curFrame = s.curFrame := rfl
@[simp] theorem emitCorf_fault (C : List CorSample) : (emitCorf C s).fault = s.fault := rfl
@[simp] theorem emitCorf_maxRange (C : List CorSample) : (emitCorf C s).maxRange = s.maxRange := rfl
@[simp] theorem emitCorf_stride (C : List CorSample) : (emitCorf C s).stride = s.stride := rfl
@[simp] theorem emitCorf_out (C : List CorSample) : (emitCorf C s).out = s.out := rfl
@[simp] theorem emitCorf_smpTap (C : List CorSample) : (emitCorf C s).smpTap = s.smpTap := rfl
@[simp] theorem emitCorf_rawfTap (C : List CorSample) : (emitCorf C s).rawfTap = s.rawfTap := rfl
@[simp] theorem emitCorf_corfTap (C : List CorSample) : (emitCorf C s).corfTap = s.corfTap ++ [C] := rfl
@[simp] theorem emitCorf_params (C : List CorSample) : (emitCorf C s).params = s.params := rfl
@[simp] theorem emitCorf_pending (C : List CorSample) : (emitCorf C s).pending = s.pending := rfl

/-! ### `startSession` -/

@[simp] theorem startSession_phase : (startSession s).phase = if s.phase = .idle then .synchronizing else s.phase := rfl
@[simp] theorem startSession_buf : (startSession s).buf = s.buf := rfl
@[simp] theorem startSession_pc : (startSession s).pc = s.pc := rfl
@[simp] theorem startSession_descFlag : (startSession s).descFlag = s.descFlag := rfl
@[simp] theorem startSession_seenStart : (startSession s).seenStart = s.seenStart := rfl
@[simp] theorem startSession_curFrame : (startSession s).curFrame = s.curFrame := rfl
@[simp] theorem startSession_fault : (startSession s).fault = s.fault := rfl
@[simp] theorem startSession_maxRange : (startSession s).maxRange = s.maxRange := rfl
@[simp] theorem startSession_stride : (startSession s).stride = s.stride := rfl
@[simp] theorem startSession_out : (startSession s).out = s.out := rfl
@[simp] theorem startSession_smpTap : (startSession s).smpTap = s.smpTap := rfl
@[simp] theorem startSession_rawfTap : (startSession s).rawfTap = s.rawfTap := rfl
@[simp] theorem startSession_corfTap : (startSession s).corfTap = s.corfTap := rfl
@[simp] theorem startSession_params : (startSession s).params = s.params := rfl
@[simp] theorem startSession_pending : (startSession s).pending = s.pending := rfl

/-! ### `enterStreaming` -/

@[simp] theorem enterStreaming_phase : (enterStreaming s).phase = .streaming := rfl
@[simp] theorem enterStreaming_buf : (enterStreaming s).buf = s.buf := rfl
@[simp] theorem enterStreaming_pc : (enterStreaming s).pc = s.pc := rfl
@[simp] theorem enterStreaming_descFlag : (enterStreaming s).descFlag = s.descFlag := rfl
@[simp] theorem enterStreaming_seenStart : (enterStreaming s).seenStart = s.seenStart := rfl
@[simp] theorem enterStreaming_curFrame : (enterStreaming s).curFrame = s.curFrame := rfl
@[simp] theorem enterStreaming_fault : (enterStreaming s).fault = s.fault := rfl
@[simp] theorem enterStreaming_maxRange : (enterStreaming s).maxRange = s.maxRange := rfl
@[simp] theorem enterStreaming_stride : (enterStreaming s).stride = s.stride := rfl
@[simp] theorem enterStreaming_out : (enterStreaming s).out = s.out := rfl
@[simp] theorem enterStreaming_smpTap : (enterStreaming s).smpTap = s.smpTap := rfl
@[simp] theorem enterStreaming_rawfTap : (enterStreaming s).rawfTap = s.rawfTap := rfl
@[simp] theorem enterStreaming_corfTap : (enterStreaming s).corfTap = s.corfTap := rfl
@[simp] theorem enterStreaming_params : (enterStreaming s).params = s.params := rfl
@[simp] theorem enterStreaming_pending : (enterStreaming s).pending = s.pending := rfl

/-! ### `noteDescriptor` -/

@[simp] theorem noteDescriptor_phase : (noteDescriptor s).phase = s.phase := rfl
@[simp] theorem noteDescriptor_buf : (noteDescriptor s).buf = s.buf := rfl
@[simp] theorem noteDescriptor_pc : (noteDescriptor s).pc = s.pc := rfl
@[simp] theorem noteDescriptor_descFlag : (noteDescriptor s).descFlag = (s.descFlag || s.params.descRecheck) := rfl
@[simp] theorem noteDescriptor_seenStart : (noteDescriptor s).seenStart = s.seenStart := rfl
@[simp] theorem noteDescriptor_curFrame : (noteDescriptor s).curFrame = s.curFrame := rfl
@[simp] theorem noteDescriptor_fault : (noteDescriptor s).fault = s.fault := rfl
@[simp] theorem noteDescriptor_maxRange : (noteDescriptor s).maxRange = s.maxRange := rfl
@[simp] theorem noteDescriptor_stride : (noteDescriptor s).stride = s.stride := rfl
@[simp] theorem noteDescriptor_out : (noteDescriptor s).out = s.out := rfl
@[simp] theorem noteDescriptor_smpTap : (noteDescriptor s).smpTap = s.smpTap := rfl
@[simp] theorem noteDescriptor_rawfTap : (noteDescriptor s).rawfTap = s.rawfTap := rfl
@[simp] theorem noteDescriptor_corfTap : (noteDescriptor s).corfTap = s.corfTap := rfl
@[simp] theorem noteDescriptor_params : (noteDescriptor s).params = s.params := rfl
@[simp] theorem noteDescriptor_pending : (noteDescriptor s).pending = s.pending := rfl

/-! ### `raiseBufferGrowthFailure` -/

@[simp] theorem raiseBufferGrowthFailure_phase : (raiseBufferGrowthFailure s).phase = .closed := rfl
@[simp] theorem raiseBufferGrowthFailure_buf : (raiseBufferGrowthFailure s).buf = [] := rfl
@[simp] theorem raiseBufferGrowthFailure_pc : (raiseBufferGrowthFailure s).pc = s.pc := rfl
@[simp] theorem raiseBufferGrowthFailure_descFlag : (raiseBufferGrowthFailure s).descFlag = s.descFlag := rfl
@[simp] theorem raiseBufferGrowthFailure_seenStart : (raiseBufferGrowthFailure s).seenStart = false := rfl
@[simp] theorem raiseBufferGrowthFailure_curFrame : (raiseBufferGrowthFailure s).curFrame = [] := rfl
@[simp] theorem raiseBufferGrowthFailure_fault : (raiseBufferGrowthFailure s).fault = .bufferGrowthFailure := rfl
@[simp] theorem raiseBufferGrowthFailure_maxRange : (raiseBufferGrowthFailure s).maxRange = s.maxRange := rfl
@[simp] theorem raiseBufferGrowthFailure_stride : (raiseBufferGrowthFailure s).stride = s.stride := rfl
@[simp] theorem raiseBufferGrowthFailure_out : (raiseBufferGrowthFailure s).out = s.out := rfl
@[simp] theorem raiseBufferGrowthFailure_smpTap : (raiseBufferGrowthFailure s).smpTap = s.smpTap := rfl
@[simp] theorem raiseBufferGrowthFailure_rawfTap : (raiseBufferGrowthFailure s).rawfTap = s.rawfTap := rfl
@[simp] theorem raiseBufferGrowthFailure_corfTap : (raiseBufferGrowthFailure s).corfTap = s.corfTap := rfl
@[simp] theorem raiseBufferGrowthFailure_params : (raiseBufferGrowthFailure s).params = s.params := rfl
@[simp] theorem raiseBufferGrowthFailure_pending : (raiseBufferGrowthFailure s).pending = s.pending := rfl

/-! ### `clearSession` -/

@[simp] theorem clearSession_phase : (clearSession s).phase = .idle := rfl
@[simp] theorem clearSession_buf : (clearSession s).buf = [] := rfl
@[simp] theorem clearSession_pc : (clearSession s).pc = 0 := rfl
@[simp] theorem clearSession_descFlag : (clearSession s).descFlag = false := rfl
@[simp] theorem clearSession_seenStart : (clearSession s).seenStart = false := rfl
@[simp] theorem clearSession_curFrame : (clearSession s).curFrame = [] := rfl
@[simp] theorem clearSession_fault : (clearSession s).fault = s.fault := rfl
@[simp] theorem clearSession_maxRange : (clearSession s).maxRange = s.maxRange := rfl
@[simp] theorem clearSession_stride : (clearSession s).stride = s.stride := rfl
@[simp] theorem clearSession_out : (clearSession s).out = s.out := rfl
@[simp] theorem clearSession_smpTap : (clearSession s).smpTap = s.smpTap := rfl
@[simp] theorem clearSession_rawfTap : (clearSession s).rawfTap = s.rawfTap := rfl
@[simp] theorem clearSession_corfTap : (clearSession s).corfTap = s.corfTap := rfl
@[simp] theorem clearSession_params : (clearSession s).params = s.params := rfl
@[simp] theorem clearSession_pending : (clearSession s).pending = s.pending := rfl

/-! ### `closeBlock` -/

@[simp] theorem closeBlock_phase : (closeBlock s).phase = .closed := rfl
@[simp] theorem closeBlock_buf : (closeBlock s).buf = [] := rfl
@[simp] theorem closeBlock_pc : (closeBlock s).pc = s.pc := rfl
@[simp] theorem closeBlock_descFlag : (closeBlock s).descFlag = s.descFlag := rfl
@[simp] theorem closeBlock_seenStart : (closeBlock s).seenStart = false := rfl
@[simp] theorem closeBlock_curFrame : (closeBlock s).curFrame = [] := rfl
@[simp] theorem closeBlock_fault : (closeBlock s).fault = s.fault := rfl
@[simp] theorem closeBlock_maxRange : (closeBlock s).maxRange = s.maxRange := rfl
@[simp] theorem closeBlock_stride : (closeBlock s).stride = s.stride := rfl
@[simp] theorem closeBlock_out : (closeBlock s).out = s.out := rfl
@[simp] theorem closeBlock_smpTap : (closeBlock s).smpTap = s.smpTap := rfl
@[simp] theorem closeBlock_rawfTap : (closeBlock s).rawfTap = s.rawfTap := rfl
@[simp] theorem closeBlock_corfTap : (closeBlock s).corfTap = s.corfTap := rfl
@[simp] theorem closeBlock_params : (closeBlock s).params = s.params := rfl
@[simp] theorem closeBlock_pending : (closeBlock s).pending = s.pending := rfl

end Sys2Proof.Machine
end

