-- ==== Sys2Proof/Laws/Ops.lean ====
section
/-!
SUPPORT. What each shared operation can do, said once: provers cite these and do not unfold the operation.
-/

namespace Sys2Proof.Machine

/-! ### Running an item -/

theorem onItem_of_ready {available : Bool} {k : Nat} {f : State → State} {s : State}
    (ha : available = true) (hk : k ≤ s.buf.length) : onItem available k f s = .next (f s) := by
  simp [onItem, ha, Nat.not_lt.mpr hk]

/-- An item that answers a next state was available, had its bytes, and answers its effect. -/
theorem onItem_next {available : Bool} {k : Nat} {f : State → State} {s t : State}
    (h : onItem available k f s = .next t) : available = true ∧ k ≤ s.buf.length ∧ t = f s := by
  unfold onItem at h
  split at h
  · cases h
  · split at h
    · cases h
    · simp_all

/-! ### The window at the cursor -/

@[simp] theorem windowAt_bytes_append (w : Window) (rest : List Byte) :
    windowAt (w.bytes ++ rest) = some w := rfl

theorem windowAt_eq_some {bs : List Byte} {w : Window} :
    windowAt bs = some w ↔ ∃ rest, bs = w.bytes ++ rest := by
  constructor
  · intro h
    unfold windowAt at h
    split at h
    · cases h; exact ⟨_, rfl⟩
    · cases h
  · rintro ⟨rest, rfl⟩; rfl

theorem windowAt_eq_none {bs : List Byte} : windowAt bs = none ↔ bs.length < recordLen := by
  unfold windowAt recordLen
  split
  · simp
  · rename_i h
    match bs, h with
    | [], _ => simp
    | [_], _ => simp
    | [_, _], _ => simp
    | [_, _, _], _ => simp
    | [_, _, _, _], _ => simp
    | b0 :: b1 :: b2 :: b3 :: b4 :: rest, h => exact absurd rfl (h b0 b1 b2 b3 b4 rest)

/-- Where a window stands, it stands whatever bytes follow. -/
theorem windowAt_append {bs : List Byte} {w : Window} (h : windowAt bs = some w) (more : List Byte) :
    windowAt (bs ++ more) = some w := by
  obtain ⟨rest, rfl⟩ := windowAt_eq_some.mp h
  rw [List.append_assoc]
  rfl

/-! ### Memory: the stream read byte by byte -/

/-- The Byte Accumulator is a canonical list of cells in every state, so every operation keeps the form. -/
theorem streamCells_wf (s : State) : Memory.wf (streamCells s) = true := by
  simp only [Memory.wf, decide_eq_true_eq, streamCells, List.pairwise_map]
  rw [List.pairwise_iff_getElem]
  intro i j hi hj hij
  simp only [List.getElem_zipIdx]
  omega

theorem reset_streamCells_wf : Memory.wf (streamCells State.reset) = true := streamCells_wf _

/-- Appending a chunk keeps the canonical form. -/
theorem appendBytes_wf (chunk : List Byte) (s : State) : Memory.wf (streamCells (appendBytes chunk s)) = true :=
  streamCells_wf _

/-- Consuming keeps the canonical form. -/
theorem consume_wf (k : Nat) (s : State) : Memory.wf (streamCells (consume k s)) = true := streamCells_wf _

/-- A read above the consumed bytes gives what it gave (R50, R66). -/
theorem memRead_consume {k addr n : Nat} {s : State} (hk : k ≤ s.buf.length) (ha : s.pc + k ≤ addr) :
    memRead addr n (consume k s) = memRead addr n s := by
  have e : (s.buf.drop k).drop (addr - (s.pc + k)) = s.buf.drop (addr - s.pc) := by
    rw [List.drop_drop]; congr 1; omega
  simp only [memRead, consume_buf, consume_pc, List.length_drop, e]
  congr 1
  apply propext
  omega

/-- A read inside the old bytes is not changed by an append (R51). -/
theorem memRead_appendBytes {chunk : List Byte} {addr n : Nat} {s : State}
    (ha : s.pc ≤ addr) (hn : addr + n ≤ s.pc + s.buf.length) :
    memRead addr n (appendBytes chunk s) = memRead addr n s := by
  have h1 : addr + n ≤ s.pc + (s.buf.length + chunk.length) := by omega
  simp only [memRead, appendBytes_buf, appendBytes_pc, List.length_append, ha, hn, h1, and_self, if_true]
  rw [List.drop_append_of_le_length (by omega), List.take_append_of_le_length (by simp; omega)]

/-! ### Completing and assembling -/

/-- All that completing a frame writes is the two taps and at most one output. -/
theorem completeFrame_eq (F : List RawSample) (s : State) :
    completeFrame F s =
      { s with
        rawfTap := s.rawfTap ++ [F]
        corfTap := s.corfTap ++ [correct s.params F]
        out := s.out ++ (if (kept s.maxRange s.stride (correct s.params F)).isEmpty then []
          else [decodedOutput (kept s.maxRange s.stride (correct s.params F))]) } := by
  simp only [completeFrame, filterFrame, emitCorf, emitRawf]
  split <;> simp_all [emitOut]

/-- `Assemble` either faults at the append or appends and notes the start (R160). -/
theorem assemble_cases (r : RawSample) (s : State) :
    (frameFull (afterClosing r s) = true ∧ assemble r s = raiseBufferGrowthFailure (afterClosing r s)) ∨
    (frameFull (afterClosing r s) = false ∧
      assemble r s = noteStart r.startFlag (appendSample r (afterClosing r s))) := by
  unfold assemble takeIn
  cases frameFull (afterClosing r s) <;> simp

variable (r : RawSample) (s : State)

@[simp] theorem afterClosing_phase : (afterClosing r s).phase = s.phase := by
  unfold afterClosing; split <;> simp [completeFrame_eq]
@[simp] theorem afterClosing_buf : (afterClosing r s).buf = s.buf := by
  unfold afterClosing; split <;> simp [completeFrame_eq]
@[simp] theorem afterClosing_pc : (afterClosing r s).pc = s.pc := by
  unfold afterClosing; split <;> simp [completeFrame_eq]
@[simp] theorem afterClosing_descFlag : (afterClosing r s).descFlag = s.descFlag := by
  unfold afterClosing; split <;> simp [completeFrame_eq]
@[simp] theorem afterClosing_seenStart : (afterClosing r s).seenStart = s.seenStart := by
  unfold afterClosing; split <;> simp [completeFrame_eq]
@[simp] theorem afterClosing_fault : (afterClosing r s).fault = s.fault := by
  unfold afterClosing; split <;> simp [completeFrame_eq]
@[simp] theorem afterClosing_maxRange : (afterClosing r s).maxRange = s.maxRange := by
  unfold afterClosing; split <;> simp [completeFrame_eq]
@[simp] theorem afterClosing_stride : (afterClosing r s).stride = s.stride := by
  unfold afterClosing; split <;> simp [completeFrame_eq]
@[simp] theorem afterClosing_smpTap : (afterClosing r s).smpTap = s.smpTap := by
  unfold afterClosing; split <;> simp [completeFrame_eq]
@[simp] theorem afterClosing_params : (afterClosing r s).params = s.params := by
  unfold afterClosing; split <;> simp [completeFrame_eq]
@[simp] theorem afterClosing_pending : (afterClosing r s).pending = s.pending := by
  unfold afterClosing; split <;> simp [completeFrame_eq]

/-- The frame that stands after a possible completion. -/
theorem afterClosing_curFrame :
    (afterClosing r s).curFrame = if closesFrame r s then [] else s.curFrame := by
  unfold afterClosing; split <;> simp

/-! ### What the descriptor flag has no part in -/

theorem afterClosing_withDescFlag (b : Bool) :
    afterClosing r { s with descFlag := b } = { afterClosing r s with descFlag := b } := by
  have e : closesFrame r { s with descFlag := b } = closesFrame r s := rfl
  unfold afterClosing
  rw [e]
  cases closesFrame r s
  · rfl
  · simp only [if_true, completeFrame_eq, clearFrame]

theorem takeIn_withDescFlag (b : Bool) :
    takeIn r { s with descFlag := b } = { takeIn r s with descFlag := b } := by
  have e : frameFull { s with descFlag := b } = frameFull s := rfl
  unfold takeIn
  rw [e]
  cases frameFull s <;> rfl

theorem takeSample_withDescFlag (b : Bool) :
    takeSample r { s with descFlag := b } = { takeSample r s with descFlag := b } := by
  have e : emitSmp r (consume recordLen { s with descFlag := b }) =
    { emitSmp r (consume recordLen s) with descFlag := b } := rfl
  simp only [takeSample, assemble, e, afterClosing_withDescFlag, takeIn_withDescFlag]

/-! ### One window -/

/-- A window step either leaves the block as it runs, the bytes it took gone from the head, or takes the fault. -/
theorem windowStep_cases {w : Window} {s : State} :
    ((windowStep w s).phase = .closed ∧ (windowStep w s).buf = [] ∧ (windowStep w s).curFrame = [] ∧
      (windowStep w s).seenStart = false ∧ (windowStep w s).fault = .bufferGrowthFailure ∧
      s.params.frameCap.isSome = true) ∨
    ((windowStep w s).phase = s.phase ∧ (windowStep w s).fault = s.fault ∧
      (windowStep w s).buf = s.buf.drop (if valid w then recordLen else 1)) := by
  unfold windowStep
  split
  · rcases assemble_cases (decodeWindow w) (emitSmp (decodeWindow w) (consume recordLen s)) with ⟨hf, he⟩ | ⟨hf, he⟩
    · left
      simp only [takeSample, he, raiseBufferGrowthFailure_phase, raiseBufferGrowthFailure_buf,
        raiseBufferGrowthFailure_curFrame, raiseBufferGrowthFailure_seenStart, raiseBufferGrowthFailure_fault, true_and]
      cases hp : s.params.frameCap with
      | none => simp [frameFull, hp] at hf
      | some n => rfl
    · right
      simp [takeSample, he]
  · right
    simp [skipByte]

variable (w : Window)

@[simp] theorem windowStep_params : (windowStep w s).params = s.params := by
  unfold windowStep; split
  · rcases assemble_cases (decodeWindow w) (emitSmp (decodeWindow w) (consume recordLen s)) with ⟨_, he⟩ | ⟨_, he⟩ <;>
      simp [takeSample, he]
  · rfl
@[simp] theorem windowStep_pc : (windowStep w s).pc = s.pc + (if valid w then recordLen else 1) := by
  unfold windowStep; split
  · rcases assemble_cases (decodeWindow w) (emitSmp (decodeWindow w) (consume recordLen s)) with ⟨_, he⟩ | ⟨_, he⟩ <;>
      simp [takeSample, he]
  · rfl
@[simp] theorem windowStep_descFlag : (windowStep w s).descFlag = s.descFlag := by
  unfold windowStep; split
  · rcases assemble_cases (decodeWindow w) (emitSmp (decodeWindow w) (consume recordLen s)) with ⟨_, he⟩ | ⟨_, he⟩ <;>
      simp [takeSample, he]
  · rfl
@[simp] theorem windowStep_maxRange : (windowStep w s).maxRange = s.maxRange := by
  unfold windowStep; split
  · rcases assemble_cases (decodeWindow w) (emitSmp (decodeWindow w) (consume recordLen s)) with ⟨_, he⟩ | ⟨_, he⟩ <;>
      simp [takeSample, he]
  · rfl
@[simp] theorem windowStep_stride : (windowStep w s).stride = s.stride := by
  unfold windowStep; split
  · rcases assemble_cases (decodeWindow w) (emitSmp (decodeWindow w) (consume recordLen s)) with ⟨_, he⟩ | ⟨_, he⟩ <;>
      simp [takeSample, he]
  · rfl
@[simp] theorem windowStep_pending : (windowStep w s).pending = s.pending := by
  unfold windowStep; split
  · rcases assemble_cases (decodeWindow w) (emitSmp (decodeWindow w) (consume recordLen s)) with ⟨_, he⟩ | ⟨_, he⟩ <;>
      simp [takeSample, he]
  · rfl

end Sys2Proof.Machine
end

