-- ==== Sys2Proof/Laws/Pass.lean ====
section
/-!
SUPPORT. The sample loop without its fuel: it is unfolded one window at a time.
-/

namespace Sys2Proof.Machine

/-- Every window that stands makes the buffer shorter. -/
theorem windowStep_buf_lt {w : Window} {s : State} (h : windowAt s.buf = some w) :
    (windowStep w s).buf.length < s.buf.length := by
  have h5 : recordLen ≤ s.buf.length := by
    by_contra hc
    rw [windowAt_eq_none.mpr (Nat.not_le.mp hc)] at h
    cases h
  have hr : recordLen = 5 := rfl
  rcases windowStep_cases (w := w) (s := s) with ⟨_, hb, _⟩ | ⟨_, _, hb⟩
  · rw [hb]; simp; omega
  · rw [hb, List.length_drop]; split <;> omega

/-- More fuel than bytes changes nothing. -/
theorem runWindows_fuel : ∀ (fuel : Nat) (s : State), s.buf.length ≤ fuel → runWindows fuel s = sampleLoop s := by
  intro fuel
  induction fuel using Nat.strong_induction_on with
  | _ fuel ih =>
    intro s hs
    unfold sampleLoop
    cases fuel with
    | zero => simp_all
    | succ fuel =>
      cases hw : windowAt s.buf with
      | none =>
        cases hl : s.buf.length with
        | zero => simp [runWindows, hw]
        | succ m => simp [runWindows, hw]
      | some w =>
        have hlt := windowStep_buf_lt hw
        cases hl : s.buf.length with
        | zero => omega
        | succ m =>
          simp only [runWindows, hw]
          split
          · rfl
          · rw [ih fuel (by omega) _ (by omega), ih m (by omega) _ (by omega)]

/-- The sample loop does one window and goes on, or stops (R112, R114). -/
theorem sampleLoop_eq (s : State) :
    sampleLoop s =
      match windowAt s.buf with
      | none => s
      | some w => if (windowStep w s).phase = .closed then windowStep w s else sampleLoop (windowStep w s) := by
  cases hw : windowAt s.buf with
  | none =>
    unfold sampleLoop
    cases hl : s.buf.length with
    | zero => rfl
    | succ m => simp [runWindows, hw]
  | some w =>
    have hlt := windowStep_buf_lt hw
    have e : sampleLoop s = runWindows s.buf.length s := rfl
    rw [e]
    cases hl : s.buf.length with
    | zero => omega
    | succ m =>
      simp only [runWindows, hw]
      split
      · rfl
      · exact runWindows_fuel m _ (by omega)

/-- Induction along the sample loop: `P s` follows where no window stands, and where one stands from `P` of the state
after it unless that one is closed. -/
theorem sampleLoop_induction {P : State → State → Prop}
    (stop : ∀ s, windowAt s.buf = none → P s s)
    (fault : ∀ s w, windowAt s.buf = some w → (windowStep w s).phase = .closed → P s (windowStep w s))
    (go : ∀ s w, windowAt s.buf = some w → (windowStep w s).phase ≠ .closed →
      P (windowStep w s) (sampleLoop (windowStep w s)) → P s (sampleLoop s)) :
    ∀ s, P s (sampleLoop s) := by
  intro s
  induction hn : s.buf.length using Nat.strong_induction_on generalizing s with
  | _ n ih =>
    cases hw : windowAt s.buf with
    | none => rw [sampleLoop_eq, hw]; exact stop s hw
    | some w =>
      by_cases hc : (windowStep w s).phase = .closed
      · rw [sampleLoop_eq, hw]; simp only [hc, if_true]; exact fault s w hw hc
      · exact go s w hw hc (ih _ (hn ▸ windowStep_buf_lt hw) _ rfl)

theorem windowStep_withDescFlag (w : Window) (b : Bool) (s : State) :
    windowStep w { s with descFlag := b } = { windowStep w s with descFlag := b } := by
  unfold windowStep
  split
  · exact takeSample_withDescFlag _ _ _
  · rfl

/-- The sample loop neither reads nor writes the descriptor flag (R112, R135). -/
theorem sampleLoop_withDescFlag (b : Bool) (s : State) :
    sampleLoop { s with descFlag := b } = { sampleLoop s with descFlag := b } := by
  refine sampleLoop_induction (P := fun s t => sampleLoop { s with descFlag := b } = { t with descFlag := b }) ?_ ?_ ?_ s
  · intro s h; rw [sampleLoop_eq]; simp only [h]
  · intro s w h hc; rw [sampleLoop_eq]; simp only [h, windowStep_withDescFlag, hc, if_true]
  · intro s w h hc ih
    rw [sampleLoop_eq, sampleLoop_eq s]; simp only [h, windowStep_withDescFlag, hc, if_false, ih]

end Sys2Proof.Machine
end

