-- ==== Sys2Proof/Laws/PerInstr.lean ====
section
/-!
SUPPORT. Statements about every instruction as syntax, one lemma per constructor.
-/

namespace Sys2Proof.Laws

/-- The number of bytes an instruction's encoding has: its format's length, and for an event its code byte and its
operands (30_encoding.md R80, R90, R92). -/
def encodedLength : Instr → Nat
  | .desc _ _ _ _ _ => descLen
  | .smpS _ _ _ => recordLen
  | .smpN _ _ _ => recordLen
  | .skip1 _ => recordLen
  | .append chunk => 1 + chunk.length
  | .reset => 1
  | .close => 1
  | .config _ _ => 5
  | .cmdScan => 2
  | .cmdStop => 2

/-- The encoding has that many bytes. -/
def EncodingLength.Statement (i : Instr) : Prop := (encode i).length = encodedLength i

theorem EncodingLength.desc (t2 t3 t4 t5 t6 : Byte) : EncodingLength.Statement (.desc t2 t3 t4 t5 t6) := rfl
theorem EncodingLength.smpS (q : BitVec 6) (a : BitVec 15) (d : BitVec 16) :
    EncodingLength.Statement (.smpS q a d) := rfl
theorem EncodingLength.smpN (q : BitVec 6) (a : BitVec 15) (d : BitVec 16) :
    EncodingLength.Statement (.smpN q a d) := rfl
theorem EncodingLength.skip1 (w : Window) : EncodingLength.Statement (.skip1 w) := rfl
theorem EncodingLength.append (chunk : List Byte) : EncodingLength.Statement (.append chunk) := by
  simp [EncodingLength.Statement, encode, encodedLength, Nat.add_comm]
theorem EncodingLength.reset : EncodingLength.Statement .reset := rfl
theorem EncodingLength.close : EncodingLength.Statement .close := rfl
theorem EncodingLength.config (m st : Half) : EncodingLength.Statement (.config m st) := rfl
theorem EncodingLength.cmdScan : EncodingLength.Statement .cmdScan := rfl
theorem EncodingLength.cmdStop : EncodingLength.Statement .cmdStop := rfl

end Sys2Proof.Laws
end

