-- ==== Sys2Proof/Tests/Slice0.lean ====
section
/-!
SUPPORT. The model's own tests, expected results taken from 95_test_vectors.md and the rules named, and for every
obligation with hypotheses a witness: a concrete state and operands that meet all of them together.
-/

namespace Sys2Proof.Tests

open Sys2Proof Sys2Proof.Machine

/-! ### Helpers -/

/-- The next state of an outcome. -/
def after (o : Host.Outcome State Fault Refusal) : Option State :=
  match o with
  | .next t => some t
  | .fault _ => none
  | .refused _ => none

/-- The block joined to a running stream, with the bytes `bs` at the cursor. -/
def streaming (bs : List Byte) : State := { State.reset with phase := .streaming, buf := bs, pc := 7 }

/-- `S(1,0,4)`, `N(1,64,4)` and `DESC` of the vectors (R93). -/
def recS : List Byte := [0x05, 0x01, 0x00, 0x04, 0x00]
def recN : List Byte := [0x06, 0x81, 0x00, 0x04, 0x00]
def desc : List Byte := [0xA5, 0x5A, 0x05, 0x00, 0x00, 0x40, 0x81]

def smpS14 : RawSample := ⟨0, 4, 1, true⟩
def smpN14 : RawSample := ⟨64, 4, 1, false⟩

/-- A revolution in progress: one start-flagged sample is held. -/
def opened (bs : List Byte) : State := { streaming bs with seenStart := true, curFrame := [smpS14] }

/-- A raw sample of `deg` degrees. -/
def atDeg (deg dist : Nat) : RawSample := ⟨BitVec.ofNat 15 (64 * deg), BitVec.ofNat 16 dist, 0, false⟩

/-- The angles and distances of a corrected frame. -/
def look (C : List CorSample) : List (Rat × Nat) := C.map fun c => (c.ang, c.distRaw.toNat)

/-! ### Well-formedness -/

theorem test_wf_refuses_skip_of_a_valid_window : (Instr.skip1 ⟨0x01, 0x01, 0x00, 0x00, 0x00⟩).wf = false := by decide
theorem test_wf_takes_skip_of_an_invalid_window : (Instr.skip1 ⟨0x01, 0x00, 0x00, 0x00, 0x00⟩).wf = true := by decide

/-! ### Decoding: words written out from the encodings -/

-- V1, V3: `dddddddddddddddd aaaaaaaaaaaaaaa 1 qqqqqq 01`
theorem test_decode_smpS_zero : decode .sample [0x01, 0x01, 0x00, 0x00, 0x00] = .ok (.smpS 0 0 0) := rfl
theorem test_decode_smpS_ones : decode .sample [0xFD, 0xFF, 0xFF, 0xFF, 0xFF] = .ok (.smpS 63 32767 65535) := rfl
-- V6: the field boundaries
theorem test_decode_smpN_boundaries : decode .sample [0x2A, 0x69, 0x24, 0xCD, 0xAB] = .ok (.smpN 10 0x1234 0xABCD) := rfl
theorem test_encode_smpN_boundaries : encode (.smpN 10 0x1234 0xABCD) = [0x2A, 0x69, 0x24, 0xCD, 0xAB] := by decide
-- V8a, V8b, V8c, V8d: each way a window fails
theorem test_decode_skip_parity00 : decode .sample [0x00, 0x01, 0, 0, 0] = .ok (.skip1 ⟨0x00, 0x01, 0, 0, 0⟩) := rfl
theorem test_decode_skip_parity11 : decode .sample [0x03, 0x01, 0, 0, 0] = .ok (.skip1 ⟨0x03, 0x01, 0, 0, 0⟩) := rfl
theorem test_decode_skip_check : decode .sample [0x02, 0x00, 0, 0, 0] = .ok (.skip1 ⟨0x02, 0x00, 0, 0, 0⟩) := rfl
theorem test_decode_skip_of_signature : decode .sample [0xA5, 0x5A, 5, 0, 0] = .ok (.skip1 ⟨0xA5, 0x5A, 5, 0, 0⟩) := rfl
-- R84 and V16
theorem test_decode_descriptor : decode .descriptor desc = .ok (.desc 0x05 0x00 0x00 0x40 0x81) := rfl
theorem test_decode_no_signature : decode .descriptor [0xA5, 0x5B, 5, 0, 0, 0x40, 0x81] = .error .noSignature := rfl
-- R90: event codes 00, 01, 10, 11
theorem test_decode_append : decode .event [0x00, 0xAA, 0xBB] = .ok (.append [0xAA, 0xBB]) := rfl
theorem test_decode_reset : decode .event [0x01] = .ok .reset := rfl
theorem test_decode_close : decode .event [0x02] = .ok .close := rfl
theorem test_decode_config : decode .event [0x03, 0xE0, 0x2E, 0x02, 0x00] = .ok (.config 12000 2) := rfl
theorem test_decode_config_short : decode .event [0x03, 0xE0] = .error .configOperands := rfl
-- R92
theorem test_decode_scan : decode .command [0xA5, 0x20] = .ok .cmdScan := rfl
theorem test_decode_stop : decode .command [0xA5, 0x25] = .ok .cmdStop := rfl
theorem test_decode_other_command : decode .command [0xA5, 0x50] = .error .unknownCommand := rfl

/-! ### One step of each instruction, fetched as the first after reset -/

theorem test_first_desc : (after (step (State.reset.withFetchWord 56 0x5AA5))).map (fun t => (t.phase, t.pc, t.buf)) =
    some (.streaming, 7, []) := by decide
theorem test_first_smpS :
    (after (step (State.reset.withFetchWord 40 0x101))).map (fun t => (t.pc, t.smpTap, t.seenStart, t.curFrame)) =
      some (5, [⟨0, 0, 0, true⟩], true, [⟨0, 0, 0, true⟩]) := by decide
theorem test_first_smpN :
    (after (step (State.reset.withFetchWord 40 0x102))).map (fun t => (t.pc, t.seenStart, t.curFrame)) =
      some (5, false, [⟨0, 0, 0, false⟩]) := by decide
theorem test_first_skip1 : (after (step (State.reset.withFetchWord 40 0x103))).map (fun t => (t.pc, t.buf, t.smpTap)) =
    some (1, [1, 0, 0, 0], []) := by decide
-- the four events; a CONFIG with operand words of zeros has a stride of 0 and is refused (R212)
theorem test_first_events :
    [0, 1, 2, 3].map (fun code => (after (step (State.reset.withFetchWord 8 code))).map fun t =>
      ((t.phase, t.pending), t.maxRange, t.stride)) =
      [some ((.synchronizing, []), 12000, 1), some ((.idle, []), 12000, 1), some ((.closed, []), 12000, 1),
        some ((.idle, []), 12000, 1)] := by decide
theorem test_first_scan : after (step (State.reset.withFetchWord 16 0x20A5)) = some State.reset := by decide
theorem test_first_stop : after (step (State.reset.withFetchWord 16 0x25A5)) = some State.reset := by decide

/-! ### Events on small states -/

-- V9, second event: the split descriptor is skipped
theorem test_append_split_descriptor :
    (after (exec (.append ([0x40, 0x81] ++ recS)) { State.reset with phase := .synchronizing, buf := [0xA5, 0x5A, 5, 0, 0] })).map
      (fun t => (t.phase, t.pc, t.buf, t.smpTap)) = some (.streaming, 12, [], [smpS14]) := by decide
-- V50: the session is cleared, the settings stay
theorem test_reset_clears :
    (after (exec .reset { opened [0x05, 0x01] with maxRange := 5000, stride := 3 })).map
      (fun t => ((t.phase, t.pc, t.buf), (t.seenStart, t.curFrame), t.maxRange, t.stride)) =
      some ((.idle, 0, []), (false, []), 5000, 3) := by decide
-- V51
theorem test_close_keeps_pc :
    (after (exec .close (opened []))).map (fun t => (t.phase, t.pc, t.seenStart, t.curFrame)) =
      some (.closed, 7, false, []) := by decide
-- V52
theorem test_config_refuses_zero_stride : after (exec (.config 5000 0) State.reset) = some State.reset := by decide
-- V62, the third sample with FRAME_CAP = 1
theorem test_smpN_faults_on_a_full_frame :
    (after (exec (.smpN 1 64 4) { opened recN with params := { Params.reference with frameCap := some 1 } })).map
      (fun t => (t.phase, t.fault, t.pc, t.buf, t.smpTap)) =
      some (.closed, .bufferGrowthFailure, 12, [], [smpN14]) := by decide
-- V60
theorem test_append_faults_beyond_capacity :
    (after (exec (.append (desc ++ recS)) { State.reset with params := { Params.reference with bufCap := some 10 } })).map
      (fun t => (t.phase, t.fault, t.pc, t.buf)) = some (.closed, .bufferGrowthFailure, 0, []) := by decide
-- V20's shape (R160's example): the start-flagged sample completes `[S(1,0,4), N(1,64,4)]`
theorem test_smpS_completes_a_frame :
    (after (exec (.smpS 1 0 4) { opened recS with curFrame := [smpS14, smpN14] })).map
      (fun t => (t.curFrame, t.rawfTap, t.out)) =
      some ([smpS14], [[smpS14, smpN14]], [⟨2, [0, 1], [1, 1], [1, 1]⟩]) := by decide +kernel

/-! ### Numbers, corrector and filter -/

-- E4
theorem test_wrap360 : [-10, 370, 360, 0, -360, -725].map (wrap360 .rational) = [350, 10, 0, 0, 0, 355] := by
  decide +kernel
-- by hand: 360·2^47/7 = 7237927972559725.71.., 360·2^18/7 = 13481691.42.., both in the unit of the last place (R182)
theorem test_round_binary64 : increment .binary64 7 = 7237927972559726 / 2 ^ 47 := by decide +kernel
theorem test_round_binary32 : increment .binary32 7 = 13481691 / 2 ^ 18 := by decide +kernel
-- V32c, V33b in both readings, V35, V36, V39
theorem test_correct_head :
    look (correct Params.reference [atDeg 200 0, atDeg 200 0, atDeg 30 1, atDeg 120 1]) =
      [(30, 1), (120, 1), (210, 0), (300, 0)] := by decide +kernel
theorem test_correct_tail :
    look (correct Params.reference [atDeg 100 1, atDeg 300 1, atDeg 5 0, atDeg 6 0]) =
      [(30, 0), (100, 1), (120, 0), (300, 1)] := by decide +kernel
theorem test_correct_all_zero :
    look (correct { Params.reference with fillScope := .allZero } [atDeg 100 1, atDeg 300 1, atDeg 5 0, atDeg 6 0]) =
      [(10, 0), (100, 1), (280, 0), (300, 1)] := by decide +kernel
theorem test_correct_interior :
    look (correct Params.reference [atDeg 9 0, atDeg 50 1, atDeg 1 0, atDeg 2 0, atDeg 230 1, atDeg 77 0]) =
      [(50, 1), (110, 0), (170, 0), (230, 1), (290, 0), (350, 0)] := by decide +kernel
theorem test_correct_degenerate :
    look (correct Params.reference [atDeg 300 0, atDeg 10 0, atDeg 200 0]) = [(300, 0), (10, 0), (200, 0)] := by
  decide +kernel
-- V42b: position 2 is a zero and uses up its slot
theorem test_filter_stride_two :
    (decodedOutput (kept 12000 2 [⟨0, 400, 0, true⟩, ⟨10, 404, 1, true⟩, ⟨20, 0, 2, true⟩, ⟨30, 412, 3, true⟩,
      ⟨40, 416, 4, true⟩, ⟨50, 420, 5, true⟩, ⟨60, 424, 6, true⟩])) =
      ⟨3, [0, 40, 60], [100, 104, 106], [0, 4, 6]⟩ := by decide +kernel
-- V41
theorem test_filter_range :
    (decodedOutput (kept 12000 1 [⟨0, 47999, 1, true⟩, ⟨1, 48000, 2, true⟩, ⟨2, 48001, 3, true⟩, ⟨3, 1, 4, true⟩])) =
      ⟨2, [0, 3], [47999 / 4, 1 / 4], [1, 4]⟩ := by decide +kernel
-- R228
theorem test_present_ranks :
    (present [.append [1], .config 1 1, .reset, .close] State.reset).pending =
      [.close, .reset, .config 1 1, .append [1]] := by decide
-- R57: a consumer that drops the first frame
theorem test_consumer_may_drop (d e : DecodedOutput) :
    ConsumerMayReceive { State.reset with out := [d, e] } [e] := by simp [ConsumerMayReceive]

/-! ### Witnesses: states and operands that meet each obligation's hypotheses -/

theorem roomBeyond_reference (n : Nat) (s : State) (h : s.params.frameCap = none) : RoomBeyond n s := by
  intro cap hc
  rw [h] at hc
  cases hc

theorem witness_ValidityIsThreeBits :
    let w : Window := ⟨0x01, 0x01, 0, 0, 0⟩
    let v : Window := ⟨0xFD, 0xFF, 9, 9, 9⟩
    w.w0.getLsbD 0 = v.w0.getLsbD 0 ∧ w.w0.getLsbD 1 = v.w0.getLsbD 1 ∧ w.w1.getLsbD 0 = v.w1.getLsbD 0 := by decide

theorem witness_EncoderAndDecoderAreInverse : valid ⟨0xFD, 0xFF, 0xFF, 0xFF, 0xFF⟩ = true := by decide

theorem witness_DecodeOfEncode :
    (Instr.skip1 ⟨0x03, 0xFF, 0xFF, 0xFF, 0xFF⟩).wf = true ∧ (Instr.smpN 63 32767 65535).wf = true := by decide

theorem witness_EncodeOfDecode :
    Format.sample ≠ .event ∧ decode .sample [0xFE, 0xFF, 0xFF, 0xFF, 0xFF] = .ok (.smpN 63 32767 65535) :=
  ⟨by decide, rfl⟩

theorem witness_StepRunsTheItemAtTheCursor_window :
    let s := streaming recS
    s.phase = .streaming ∧ descPending s = false ∧ s.buf = (Window.mk 0x05 0x01 0x00 0x04 0x00).bytes ++ [] ∧
      decode .sample (Window.mk 0x05 0x01 0x00 0x04 0x00).bytes = .ok (.smpS 1 0 4) :=
  ⟨rfl, rfl, rfl, rfl⟩

theorem witness_StepRunsTheItemAtTheCursor_descriptor :
    let s := { State.reset with phase := .synchronizing, buf := desc ++ [0x01] }
    (s.phase = .synchronizing ∨ s.phase = .streaming) ∧ descPending s = true ∧ s.buf = desc ++ [0x01] ∧
      decode .descriptor desc = .ok (.desc 0x05 0x00 0x00 0x40 0x81) :=
  ⟨by decide, rfl, rfl, rfl⟩

theorem witness_StepRunsTheItemAtTheCursor_no_signature :
    let s := { State.reset with phase := .synchronizing, buf := recS ++ [0x06, 0x81] }
    (s.phase = .synchronizing ∨ s.phase = .streaming) ∧ descPending s = true ∧
      s.buf = (Window.mk 0x05 0x01 0x00 0x04 0x00).bytes ++ [0x06, 0x81] ∧ 7 ≤ s.buf.length ∧
      ((0x05 : Byte) ≠ 0xA5 ∨ (0x01 : Byte) ≠ 0x5A) ∧
      decode .sample (Window.mk 0x05 0x01 0x00 0x04 0x00).bytes = .ok (.smpS 1 0 4) :=
  ⟨by decide, rfl, rfl, by decide, by decide, rfl⟩

theorem witness_StepRunsTheHostsNextAction :
    (let s := { State.reset with pending := [.config 5000 2] }
     fetchItem s = none ∧ s.pending = .config 5000 2 :: []) ∧
    fetchItem State.reset = none ∧ State.reset.pending = [] := by decide

/-- A state that meets the invariant, in the middle of a stream. -/
theorem witness_invariant : Inv (opened [0x06, 0x81, 0x00, 0x04]) := by
  constructor <;> decide

theorem witness_EveryStepKeepsTheInvariant :
    Inv { State.reset with pending := [.append (desc ++ recS)] } ∧
    (after (step { State.reset with pending := [.append (desc ++ recS)] })).isSome = true := by
  refine ⟨?_, by decide⟩
  constructor <;> decide

theorem witness_DescSkipsSevenBytes :
    (let s := { State.reset with phase := .synchronizing, buf := desc ++ recS }
     s.params.descRecheck = false ∧ s.phase = .synchronizing ∧
       s.buf = [0xA5, 0x5A, 0x05, 0x00, 0x00, 0x40, 0x81] ++ recS) ∧
    (let s := streaming (desc ++ recS)
     s.params.descRecheck = false ∧ s.phase = .streaming ∧
       s.buf = [0xA5, 0x5A, 0x05, 0x00, 0x00] ++ ([0x40, 0x81] ++ recS)) ∧
    (let s := streaming [0xA5]
     s.params.descRecheck = false ∧ s.phase = .streaming ∧ bufOverflows 4 s = false ∧
       s.buf ++ [0x5A, 0x05, 0x00, 0x00] = [0xA5, 0x5A, 0x05, 0x00, 0x00] ++ []) := by decide

theorem witness_DescSetsItsFlagUnderRecheck :
    let s := { streaming (desc ++ recS) with params := { Params.reference with descRecheck := true } }
    s.params.descRecheck = true ∧ s.descFlag = false ∧ (s.phase = .synchronizing ∨ s.phase = .streaming) ∧
      s.buf = [0xA5, 0x5A, 0x05, 0x00, 0x00, 0x40, 0x81] ++ recS := by decide

theorem witness_SmpSTakesAStartSample_opens :
    let s := streaming recS
    s.phase = .streaming ∧ 5 ≤ s.buf.length ∧ (s.seenStart = false ∨ s.curFrame = []) ∧
      RoomBeyond s.curFrame.length s :=
  ⟨rfl, by decide, by decide, roomBeyond_reference _ _ rfl⟩

theorem witness_SmpSTakesAStartSample_closes :
    let s := { opened recS with params := { Params.reference with frameCap := some 1 } }
    s.phase = .streaming ∧ 5 ≤ s.buf.length ∧ s.seenStart = true ∧ s.curFrame ≠ [] ∧ RoomBeyond 0 s :=
  ⟨rfl, by decide, rfl, by decide, fun cap h => by cases h; decide⟩

theorem witness_SmpNTakesASample :
    let s := { opened recN with params := { Params.reference with frameCap := some 2 } }
    s.phase = .streaming ∧ 5 ≤ s.buf.length ∧ RoomBeyond s.curFrame.length s :=
  ⟨rfl, by decide, fun cap h => by cases h; decide⟩

theorem witness_FullFrameBufferFaults :
    (let s := { opened recN with params := { Params.reference with frameCap := some 1 } }
     s.phase = .streaming ∧ 5 ≤ s.buf.length ∧ s.params.frameCap = some 1 ∧ 1 ≤ s.curFrame.length) ∧
    (let s := { streaming recS with params := { Params.reference with frameCap := some 1 }, curFrame := [smpN14] }
     s.phase = .streaming ∧ 5 ≤ s.buf.length ∧ s.params.frameCap = some 1 ∧ 1 ≤ s.curFrame.length ∧
       s.seenStart = false) := by decide

theorem witness_EveryDecodedSampleIsAppended :
    let s := { streaming recN with params := { Params.reference with frameCap := some 1 } }
    s.phase = .streaming ∧ 5 ≤ s.buf.length ∧ frameAtAppend smpN14 s = [] ∧ RoomBeyond (frameAtAppend smpN14 s).length s :=
  ⟨rfl, by decide, rfl, fun cap h => by cases h; decide⟩

/-- A start-flagged sample on a full frame buffer completes the frame, and is then appended. -/
theorem witness_EveryDecodedSampleIsAppended_closes :
    let s := { opened recS with params := { Params.reference with frameCap := some 1 } }
    s.phase = .streaming ∧ 5 ≤ s.buf.length ∧ frameFull s = true ∧ RoomBeyond (frameAtAppend smpS14 s).length s :=
  ⟨rfl, by decide, by decide, fun cap h => by cases h; decide⟩

theorem witness_Skip1DropsOneByte :
    let s := streaming [0x03, 0x01, 0x00, 0x00, 0x00]
    s.phase = .streaming ∧ s.buf = (Window.mk 0x03 0x01 0x00 0x00 0x00).bytes ++ [] := by decide

theorem witness_ItemsStopWhereTheyDoNotStand :
    State.reset.phase ≠ .streaming ∧
    ((streaming [1, 2, 3, 4]).phase = .streaming ∧ (streaming [1, 2, 3, 4]).buf.length < 5) ∧
    descAvailable (streaming desc) = false ∧
    (descAvailable { State.reset with phase := .synchronizing, buf := [0xA5, 0x5A, 5, 0, 0, 0x40] } = true ∧
      [0xA5, 0x5A, 5, 0, 0, (0x40 : Byte)].length < 7) := by decide

theorem witness_StreamItemsFrame :
    ∃ t, (Instr.skip1 ⟨0x03, 0x01, 0x00, 0x00, 0x00⟩).format = .sample ∧
      exec (.skip1 ⟨0x03, 0x01, 0x00, 0x00, 0x00⟩) (streaming [0x03, 0x01, 0x00, 0x00, 0x00]) = .next t ∧
      t.phase ≠ .closed :=
  ⟨_, rfl, rfl, by decide⟩

theorem witness_StreamItemsFrame_desc :
    let s := { State.reset with phase := .synchronizing, buf := desc }
    ∃ t, (Instr.desc 0x05 0x00 0x00 0x40 0x81).format = .descriptor ∧
      exec (.desc 0x05 0x00 0x00 0x40 0x81) s = .next t ∧ t.phase ≠ .closed :=
  ⟨_, rfl, rfl, by decide⟩

theorem witness_AppendHoldsBelowSevenBytes :
    (let s := { State.reset with phase := .synchronizing, buf := recS }
     s.params.descRecheck = false ∧ (s.phase = .idle ∨ s.phase = .synchronizing) ∧ bufOverflows 1 s = false ∧
       s.buf.length + [(0x06 : Byte)].length < 7) ∧
    (let s := { streaming recS with params := { Params.reference with descRecheck := true } }
     s.params.descRecheck = true ∧ s.descFlag = false ∧ s.phase ≠ .closed ∧ bufOverflows 1 s = false ∧
       s.buf.length + [(0x06 : Byte)].length < 7) := by decide

theorem witness_DescriptorIsCheckedOnceAtTheHead :
    (let s := { State.reset with phase := .synchronizing, buf := [0xA5, 0x5A, 5, 0, 0] }
     s.params.descRecheck = false ∧ (s.phase = .idle ∨ s.phase = .synchronizing) ∧ bufOverflows 2 s = false ∧
       s.buf ++ [0x40, 0x81] = [0xA5, 0x5A, 0x05, 0x00, 0x00, 0x40, 0x81] ++ []) ∧
    (State.reset.params.descRecheck = false ∧ (State.reset.phase = .idle ∨ State.reset.phase = .synchronizing) ∧
       bufOverflows 7 State.reset = false ∧ 7 ≤ (State.reset.buf ++ (recS ++ [0x06, 0x81])).length ∧
       signatureAt (State.reset.buf ++ (recS ++ [0x06, 0x81])) = false) := by decide

/-- The other reading of the descriptor check, as in R135. -/
def rechecking (s : State) : State := { s with params := { Params.reference with descRecheck := true } }

theorem witness_DescriptorIsCheckedInEveryPassUnderRecheck :
    (let s := rechecking (streaming [0xA5, 0x5A, 5, 0, 0])
     s.params.descRecheck = true ∧ s.descFlag = false ∧ s.phase ≠ .closed ∧ bufOverflows 2 s = false ∧
       s.buf ++ [0x40, 0x81] = [0xA5, 0x5A, 0x05, 0x00, 0x00, 0x40, 0x81] ++ []) ∧
    (let s := rechecking State.reset
     s.params.descRecheck = true ∧ s.descFlag = false ∧ s.phase ≠ .closed ∧ bufOverflows 7 s = false ∧
       7 ≤ (s.buf ++ (recS ++ [0x06, 0x81])).length ∧ signatureAt (s.buf ++ (recS ++ [0x06, 0x81])) = false) := by decide

theorem witness_AppendRunsOneItemPerWindow :
    let s := streaming [0x05, 0x01]
    s.phase = .streaming ∧ descPending s = false ∧ bufOverflows 4 s = false ∧
      s.buf ++ [0x00, 0x04, 0x00, 0x06] = (Window.mk 0x05 0x01 0x00 0x04 0x00).bytes ++ [0x06] := by decide

theorem witness_CompletedPassLeavesAShortTail :
    ∃ t, (streaming []).phase ≠ .closed ∧ exec (.append [1, 2, 3, 4]) (streaming []) = .next t :=
  ⟨_, by decide, rfl⟩

theorem witness_AppendBeyondCapacityFaults :
    let s := { State.reset with params := { Params.reference with bufCap := some 10 } }
    s.phase ≠ .closed ∧ s.params.bufCap = some 10 ∧ 10 < s.buf.length + (desc ++ recS).length := by decide

theorem witness_EmptyChunkDoesNothing :
    Inv State.reset ∧ State.reset.phase = .idle ∧
    Inv (opened [0x06, 0x81, 0x00, 0x04]) ∧ (opened [0x06, 0x81, 0x00, 0x04]).phase ≠ .idle :=
  ⟨by constructor <;> decide, rfl, witness_invariant, by decide⟩

theorem witness_ChunkingDoesNotMatter :
    State.reset.phase ≠ .closed ∧ State.reset.params.bufCap = none ∧ State.reset.params.frameCap = none ∧
      State.reset.params.descRecheck = false := by decide

theorem witness_IntactRecordsDecodeInOrder :
    let s := streaming []
    s.phase = .streaming ∧ descPending s = false ∧ s.buf = [] ∧ s.params.bufCap = none ∧ s.params.frameCap = none := by
  decide

theorem witness_FramesCompletedAreStartsLessOne :
    ∃ t, ((opened []).seenStart = true → (opened []).curFrame ≠ []) ∧ deliverAll [recN, []] (opened []) = .next t :=
  ⟨_, by decide, rfl⟩

theorem witness_ResetClearsTheSession :
    (opened [1]).phase ≠ .closed ∧ ({ State.reset with phase := .closed } : State).phase = .closed ∧
    (Inv State.reset ∧ State.reset.phase = .idle) ∧ ∃ t, exec .reset (opened [1]) = .next t :=
  ⟨by decide, rfl, ⟨by constructor <;> decide, rfl⟩, _, rfl⟩

theorem witness_ResetForgetsTheSession :
    let s₁ := opened [1, 2, 3]
    let s₂ := streaming []
    s₁.phase ≠ .closed ∧ s₂.phase ≠ .closed ∧ s₁.fault = s₂.fault ∧ s₁.maxRange = s₂.maxRange ∧
      s₁.stride = s₂.stride ∧ s₁.out = s₂.out ∧ s₁.smpTap = s₂.smpTap ∧ s₁.rawfTap = s₂.rawfTap ∧
      s₁.corfTap = s₂.corfTap ∧ s₁.params = s₂.params ∧ s₁.pending = s₂.pending := by decide

theorem witness_CloseShutsTheBlock :
    (opened [1]).phase ≠ .closed ∧ Inv { State.reset with phase := .closed } :=
  ⟨by decide, by constructor <;> decide⟩

theorem witness_ConfigWritesBothOrNeither :
    (State.reset.phase ≠ .closed ∧ (65535 : Half) ≠ 0) ∧ ({ State.reset with phase := .closed } : State).phase = .closed := by
  decide

theorem witness_ClosedIgnoresEveryEvent : ({ State.reset with phase := .closed } : State).phase = .closed := rfl

theorem witness_ClosedIsAbsorbing :
    ({ State.reset with phase := .closed, pending := [.reset] } : State).phase = .closed := rfl

theorem witness_PhaseTable :
    State.reset.params.descRecheck = false ∧ State.reset.fault = .none ∧
    (∃ t, exec (.append desc) State.reset = .next t) ∧ (∃ t, exec .reset State.reset = .next t) ∧
    (∃ t, exec .close State.reset = .next t) ∧ ∃ t, exec (.config 1 1) State.reset = .next t :=
  ⟨rfl, rfl, ⟨_, rfl⟩, ⟨_, rfl⟩, ⟨_, rfl⟩, _, rfl⟩

/-- A step that takes the fault. -/
theorem witness_FaultIsStickyAndCloses :
    (let s : State := { State.reset with params := { Params.reference with bufCap := some 1 }, pending := [.append [1, 2]] }
     (after (step s)).map (fun t => decide (t.fault ≠ s.fault)) = some true) ∧
    (let s : State := { State.reset with phase := .closed, fault := .bufferGrowthFailure, pending := [.reset] }
     s.fault = .bufferGrowthFailure ∧ (after (step s)).isSome = true) := by decide

theorem witness_ObservationsOnlyGrow : ∃ t, step (streaming recS) = .next t := ⟨_, rfl⟩

theorem witness_OnlyConfigChangesTheSettings :
    let s : State := { State.reset with pending := [.config 5000 2] }
    (after (step s)).map (fun t => decide (t.maxRange ≠ s.maxRange ∨ t.stride ≠ s.stride)) = some true := by decide

theorem witness_WrapIsTheRemainderInATurn :
    (0 : Rat) ≤ 10 ∧ (10 : Rat) < 360 ∧ (370 : Rat) - 10 = 360 * ((1 : Int) : Rat) := by norm_num

theorem witness_DegenerateFrameIsReturnedUnmodified : ∀ r ∈ [atDeg 300 0, atDeg 10 0], r.distRaw = 0 := by decide

theorem witness_CorrectedFrameIsStablySorted : ∃ r ∈ [atDeg 300 0, atDeg 10 5], r.distRaw ≠ 0 := by decide

theorem witness_RewrittenAnglesHaveClosedForms :
    let F := [atDeg 9 0, atDeg 50 1, atDeg 1 0, atDeg 230 1, atDeg 77 0]
    Params.reference.num = .rational ∧ IsFirstReturn F 1 ∧ IsLastReturn F 3 := by
  refine ⟨rfl, ⟨by decide, fun i hi => ?_⟩, ⟨by decide, fun i hi => ?_⟩⟩
  · interval_cases i; decide
  · rcases Nat.lt_or_ge i 5 with h | h
    · interval_cases i; decide
    · simp [distAt, h]

theorem witness_CorrectorPreservesSamples :
    let F := [atDeg 9 0, atDeg 50 1]
    F[0]? = some (atDeg 9 0) ∧ (atDeg 9 0).distRaw = 0 ∧ (∃ v ∈ F, v.distRaw ≠ 0) ∧
      F[1]? = some (atDeg 50 1) ∧ (atDeg 50 1).distRaw ≠ 0 := by decide

theorem witness_AscendIsIdempotentOnFullFrames :
    let F := [atDeg 0 1, atDeg 90 1, atDeg 90 2]
    (∀ r ∈ F, r.distRaw ≠ 0) ∧ F.Pairwise (fun a b => a.angleRaw.toNat ≤ b.angleRaw.toNat) := by decide

theorem witness_IntegerCorrectorAgrees :
    Params.reference.num = .rational ∧ Params.reference.fillScope = .interior := by decide

theorem witness_RangeTest :
    distanceMm 48000 = ((12000 : Half).toNat : Rat) ∧ 16384 ≤ (16384 : Half).toNat ∧
      48000 ≤ (48000 : BitVec 16).toNat := by decide +kernel

theorem witness_FilterVisitsEveryStridethPosition : (7 : Nat) ≠ 0 ∧ [(⟨0, 1, 0, true⟩ : CorSample)].length ≤ 7 := by decide

theorem witness_EmittedOutputsSatisfyTheirBounds :
    (2 : Half) ≠ 0 ∧ kept 12000 2 (correct Params.reference [atDeg 9 0, atDeg 50 1, atDeg 60 1]) ≠ [] := by
  decide +kernel

theorem witness_DegenerateFrameEmitsNothing :
    let s := { opened recS with curFrame := [atDeg 300 0, atDeg 10 0] }
    s.phase = .streaming ∧ 5 ≤ s.buf.length ∧ s.seenStart = true ∧ s.curFrame ≠ [] ∧
      (∀ r ∈ s.curFrame, r.distRaw = 0) ∧ RoomBeyond 0 s :=
  ⟨rfl, by decide, rfl, by decide, by decide, roomBeyond_reference _ _ rfl⟩

end Sys2Proof.Tests
end

