-- ==== Sys2Proof/Proofs/Observations.lean ====
section
/-!
PROOFS. What was emitted stays emitted (20_memory.md R57): the observations grow along every operation, and so along
every step. The argument is one relation between two states, reflexive and transitive, that each operation satisfies.
-/

namespace Sys2Proof.Machine

/-- `t` may follow `s` as far as an observer can tell: the traces of `s` begin those of `t`, under the same parameters. -/
def KeepsObserved (s t : State) : Prop := ObservationsGrow s t ∧ t.params = s.params

/-! ### The relation -/

/-- An update that writes no trace and no parameter keeps what was observed; for a record update each premise is `rfl`. -/
theorem KeepsObserved.of_unchanged {s t : State} (out : t.out = s.out := by rfl) (smp : t.smpTap = s.smpTap := by rfl)
    (rawf : t.rawfTap = s.rawfTap := by rfl) (corf : t.corfTap = s.corfTap := by rfl)
    (params : t.params = s.params := by rfl) : KeepsObserved s t :=
  ⟨⟨out ▸ List.prefix_rfl, smp ▸ List.prefix_rfl, rawf ▸ List.prefix_rfl, corf ▸ List.prefix_rfl⟩, params⟩

theorem KeepsObserved.refl (s : State) : KeepsObserved s s := .of_unchanged

theorem KeepsObserved.trans {s t u : State} (hst : KeepsObserved s t) (htu : KeepsObserved t u) : KeepsObserved s u := by
  obtain ⟨⟨out, smp, rawf, corf⟩, params⟩ := hst
  obtain ⟨⟨out', smp', rawf', corf'⟩, params'⟩ := htu
  exact ⟨⟨out.trans out', smp.trans smp', rawf.trans rawf', corf.trans corf'⟩, params'.trans params⟩

/-! ### The operations that write a trace -/

theorem emitSmp_keepsObserved (r : RawSample) (s : State) : KeepsObserved s (emitSmp r s) :=
  ⟨⟨List.prefix_rfl, List.prefix_append _ _, List.prefix_rfl, List.prefix_rfl⟩, rfl⟩

theorem completeFrame_keepsObserved (F : List RawSample) (s : State) : KeepsObserved s (completeFrame F s) := by
  rw [completeFrame_eq]
  exact ⟨⟨List.prefix_append _ _, List.prefix_rfl, List.prefix_append _ _, List.prefix_append _ _⟩, rfl⟩

/-! ### The sample path and the parse pass -/

theorem afterClosing_keepsObserved (r : RawSample) (s : State) : KeepsObserved s (afterClosing r s) := by
  unfold afterClosing
  split
  · exact (completeFrame_keepsObserved s.curFrame s).trans .of_unchanged
  · exact .refl s

theorem assemble_keepsObserved (r : RawSample) (s : State) : KeepsObserved s (assemble r s) := by
  rcases assemble_cases r s with ⟨_, he⟩ | ⟨_, he⟩ <;> rw [he]
  · exact (afterClosing_keepsObserved r s).trans .of_unchanged
  · exact (afterClosing_keepsObserved r s).trans .of_unchanged

theorem takeSample_keepsObserved (r : RawSample) (s : State) : KeepsObserved s (takeSample r s) :=
  have consumed : KeepsObserved s (consume recordLen s) := .of_unchanged
  (consumed.trans (emitSmp_keepsObserved r _)).trans (assemble_keepsObserved r _)

theorem windowStep_keepsObserved (w : Window) (s : State) : KeepsObserved s (windowStep w s) := by
  unfold windowStep
  split
  · exact takeSample_keepsObserved (decodeWindow w) s
  · exact .of_unchanged

theorem sampleLoop_keepsObserved (s : State) : KeepsObserved s (sampleLoop s) := by
  refine sampleLoop_induction (P := KeepsObserved) ?stop ?fault ?go s
  case stop => exact fun s _ => .refl s
  case fault => exact fun s w _ _ => windowStep_keepsObserved w s
  case go =>
    intro s w hw hopen ih
    have loop : sampleLoop s = sampleLoop (windowStep w s) := by rw [sampleLoop_eq s, hw]; exact if_neg hopen
    exact loop ▸ (windowStep_keepsObserved w s).trans ih

theorem checkDescriptor_keepsObserved (s : State) : KeepsObserved s (checkDescriptor s) := by
  unfold checkDescriptor
  split <;> exact .of_unchanged

theorem parsePass_keepsObserved (s : State) : KeepsObserved s (parsePass s) := by
  unfold parsePass
  split
  · split
    · exact .refl s
    · exact (checkDescriptor_keepsObserved s).trans (sampleLoop_keepsObserved _)
  · exact sampleLoop_keepsObserved s

/-! ### The events -/

theorem deliver_keepsObserved (chunk : List Byte) (s : State) : KeepsObserved s (deliver chunk s) := by
  unfold deliver
  split
  · exact .of_unchanged
  · have appended : KeepsObserved s (appendBytes chunk (startSession s)) := .of_unchanged
    exact appended.trans (parsePass_keepsObserved _)

theorem configure_keepsObserved (m st : Half) (s : State) : KeepsObserved s (configure m st s) := by
  unfold configure
  split <;> exact .of_unchanged

theorem unlessClosed_keepsObserved {f : State → State} {s : State} (hf : KeepsObserved s (f s)) :
    KeepsObserved s (unlessClosed f s) := by
  unfold unlessClosed
  split
  · exact .refl s
  · exact hf

/-! ### The instructions and the step -/

theorem onItem_keepsObserved {available : Bool} {k : Nat} {f : State → State} {s t : State}
    (hf : KeepsObserved s (f s)) (h : onItem available k f s = .next t) : KeepsObserved s t := by
  obtain ⟨-, -, rfl⟩ := onItem_next h
  exact hf

theorem exec_keepsObserved {i : Instr} {s t : State} (h : exec i s = .next t) : KeepsObserved s t := by
  cases i with
  | desc => exact onItem_keepsObserved .of_unchanged h
  | smpS => exact onItem_keepsObserved (takeSample_keepsObserved _ s) h
  | smpN => exact onItem_keepsObserved (takeSample_keepsObserved _ s) h
  | skip1 => exact onItem_keepsObserved .of_unchanged h
  | append chunk => cases h; exact unlessClosed_keepsObserved (deliver_keepsObserved chunk s)
  | reset => cases h; exact unlessClosed_keepsObserved .of_unchanged
  | close => cases h; exact unlessClosed_keepsObserved .of_unchanged
  | config m st => cases h; exact unlessClosed_keepsObserved (configure_keepsObserved m st s)
  | cmdScan => cases h; exact .refl s
  | cmdStop => cases h; exact .refl s

theorem beforeItem_keepsObserved (i : Instr) (s : State) : KeepsObserved s (beforeItem i s) := by
  unfold beforeItem
  split <;> exact .of_unchanged

theorem afterItem_keepsObserved (i : Instr) (s : State) : KeepsObserved s (afterItem i s) := by
  unfold afterItem
  split <;> exact .of_unchanged

theorem mapNext_eq_next {f : State → State} {o : Host.Outcome State Fault Refusal} {t : State} :
    mapNext f o = .next t ↔ ∃ u, o = .next u ∧ f u = t := by
  cases o <;> simp [mapNext]

/-- A step that answers a next state ran the item at the cursor, or took the host's next action, or waited. -/
theorem step_next_cases {s t : State} (h : step s = .next t) :
    (∃ i u, fetch s = .item i ∧ exec i (beforeItem i s) = .next u ∧ t = afterItem i u) ∨
    (∃ a rest, fetch s = .action a rest ∧ exec a.instr { s with pending := rest } = .next t) ∨
    (fetch s = .nothing ∧ t = s) := by
  unfold step at h
  split at h
  next i hi =>
    obtain ⟨u, hu, ht⟩ := mapNext_eq_next.mp h
    exact .inl ⟨i, u, hi, hu, ht.symm⟩
  next a rest ha => exact .inr (.inl ⟨a, rest, ha, h⟩)
  next hn => cases h; exact .inr (.inr ⟨hn, rfl⟩)

theorem step_keepsObserved {s t : State} (h : step s = .next t) : KeepsObserved s t := by
  rcases step_next_cases h with ⟨i, u, -, hu, rfl⟩ | ⟨a, rest, -, ht⟩ | ⟨-, rfl⟩
  · exact ((beforeItem_keepsObserved i s).trans (exec_keepsObserved hu)).trans (afterItem_keepsObserved i u)
  · have taken : KeepsObserved s { s with pending := rest } := .of_unchanged
    exact taken.trans (exec_keepsObserved ht)
  · exact .refl _

end Sys2Proof.Machine

/-- Settles O43: every operation of a step keeps what was observed, by `step_keepsObserved`. -/
theorem observationsOnlyGrow : Obligations.ObservationsOnlyGrow := by
  unfold Obligations.ObservationsOnlyGrow
  exact fun _ _ h => Sys2Proof.Machine.step_keepsObserved h

end

