-- ==== Sys2Proof/Proofs/Descriptor.lean ====
section
/-!
PROOFS. The descriptor's bytes in the two phases (41_descriptor_skipper.md R133): where the check is to be made they are
dropped as one item, and after it the window they begin is invalid, so that a pass drops one byte and goes on.
-/

namespace Sys2Proof.Machine

/-! ### Known bytes at the head -/

theorem consume_length_eq {head rest : List Byte} {s : State} (hb : s.buf = head ++ rest) :
    consume head.length s = { s with buf := rest, pc := s.pc + head.length } := by
  simp [consume, hb]

theorem skipByte_eq {b : Byte} {rest : List Byte} {s : State} (hb : s.buf = b :: rest) :
    skipByte s = { s with buf := rest, pc := s.pc + 1 } :=
  consume_length_eq (head := [b]) hb

@[simp] theorem appendBytes_nil (s : State) : appendBytes [] s = s := by
  simp [appendBytes]

/-- An append that grows the buffer by less overflows no sooner (R65). -/
theorem bufOverflows_of_length_le {m n : Nat} {s t : State} (hparams : t.params = s.params)
    (hle : t.buf.length + n ≤ s.buf.length + m) (h : bufOverflows m s = false) : bufOverflows n t = false := by
  unfold bufOverflows at *
  rw [hparams]
  cases hcap : s.params.bufCap with
  | none => rfl
  | some cap =>
    simp only [hcap, decide_eq_false_iff_not] at h ⊢
    omega

/-! ### `DESC` where the descriptor is checked once -/

theorem noteDescriptor_of_checkedOnce {s : State} (hr : s.params.descRecheck = false) : noteDescriptor s = s := by
  simp [noteDescriptor, hr]

theorem descAvailable_of_synchronizing {s : State} (hr : s.params.descRecheck = false)
    (hp : s.phase = .synchronizing) : descAvailable s = true := by
  simp [descAvailable, descPending, hr, hp]

theorem descPending_of_streaming {s : State} (hr : s.params.descRecheck = false) (hp : s.phase = .streaming) :
    descPending s = false := by
  simp [descPending, hr, hp]

/-- R133: `DESC` is `consume(7)`, whatever its tail. -/
theorem exec_desc_of_synchronizing {s : State} (t2 t3 t4 t5 t6 : Byte) (hr : s.params.descRecheck = false)
    (hp : s.phase = .synchronizing) (hk : descLen ≤ s.buf.length) :
    exec (.desc t2 t3 t4 t5 t6) s = .next (consume descLen s) := by
  have ran : exec (.desc t2 t3 t4 t5 t6) s = .next (skipDescriptor s) :=
    onItem_of_ready (descAvailable_of_synchronizing hr hp) hk
  rw [ran, skipDescriptor, noteDescriptor_of_checkedOnce (by simpa using hr)]

/-! ### An invalid window in `Streaming` -/

theorem valid_of_checkBit_clear {w : Window} (hc : bitC w = false) : valid w = false := by
  simp [valid, okC, hc]

/-- The signature bytes make a window invalid: the check bit of `5A` is 0 (R141). -/
theorem valid_signature (t2 t3 t4 : Byte) : valid ⟨0xA5, 0x5A, t2, t3, t4⟩ = false :=
  valid_of_checkBit_clear (by simp [bitC])

theorem classify_of_invalid {w : Window} (hv : valid w = false) : classify w = .skip1 w := by
  simp [classify, hv]

theorem windowStep_of_invalid {w : Window} (hv : valid w = false) (s : State) : windowStep w s = skipByte s := by
  simp [windowStep, hv]

theorem exec_skip1_of_streaming {s : State} (w : Window) (hp : s.phase = .streaming) (hk : recordLen ≤ s.buf.length) :
    exec (.skip1 w) s = .next (skipByte s) :=
  onItem_of_ready (by simp [windowAvailable, hp]) hk

/-- The sample loop passes over an invalid window by dropping its first byte (R140, R145). -/
theorem sampleLoop_of_invalid {w : Window} {s : State} (hopen : s.phase ≠ .closed) (hw : windowAt s.buf = some w)
    (hv : valid w = false) : sampleLoop s = sampleLoop (skipByte s) := by
  have still_open : (skipByte s).phase ≠ .closed := hopen
  rw [sampleLoop_eq s, hw]
  simp [windowStep_of_invalid hv, still_open]

/-! ### `APPEND` in `Streaming` -/

theorem startSession_of_streaming {s : State} (hp : s.phase = .streaming) : startSession s = s := by
  cases s
  simp_all [startSession]

/-- After the descriptor check an `APPEND` is the sample loop over the waiting bytes and the chunk (R110, R112). -/
theorem exec_append_of_streaming {c : List Byte} {s : State} (hp : s.phase = .streaming)
    (hd : descPending s = false) (hcap : bufOverflows c.length s = false) :
    exec (.append c) s = .next (sampleLoop (appendBytes c s)) := by
  have still_done : descPending (appendBytes c s) = false := hd
  have delivered : deliver c s = sampleLoop (appendBytes c s) := by
    simp [deliver, hcap, startSession_of_streaming hp, parsePass, still_done]
  have ran : exec (.append c) s = .next (unlessClosed (deliver c) s) := rfl
  simp [ran, unlessClosed, hp, delivered]

/-- An `APPEND` that finds an invalid window at the head goes on from the byte after it. -/
theorem exec_append_of_invalid {w : Window} {c : List Byte} {s : State} (hp : s.phase = .streaming)
    (hd : descPending s = false) (hcap : bufOverflows c.length s = false) (hw : windowAt (s.buf ++ c) = some w)
    (hv : valid w = false) : exec (.append c) s = exec (.append []) (skipByte (appendBytes c s)) := by
  have fits : bufOverflows 0 (skipByte (appendBytes c s)) = false :=
    bufOverflows_of_length_le (s := s) rfl (by simp [skipByte]) hcap
  calc exec (.append c) s
      = .next (sampleLoop (appendBytes c s)) := exec_append_of_streaming hp hd hcap
    _ = .next (sampleLoop (skipByte (appendBytes c s))) := by
        rw [sampleLoop_of_invalid (by simp [hp]) (by simpa using hw) hv]
    _ = exec (.append []) (skipByte (appendBytes c s)) := by
        rw [exec_append_of_streaming (c := []) (s := skipByte (appendBytes c s)) hp hd fits, appendBytes_nil]

end Sys2Proof.Machine

open Sys2Proof Sys2Proof.Machine in
/-- Settles O14: `DESC` is `consume` of its seven bytes; in `Streaming` the signature's window is invalid, which fixes
both its item and what a pass does with it. -/
theorem descSkipsSevenBytes : Obligations.DescSkipsSevenBytes := by
  unfold Obligations.DescSkipsSevenBytes
  refine ⟨?desc, ?item, ?append⟩
  case desc =>
    intro t2 t3 t4 t5 t6 rest s hr hp hb
    rw [exec_desc_of_synchronizing t2 t3 t4 t5 t6 hr hp (by simp [hb, descLen])]
    exact congrArg _ (consume_length_eq hb)
  case item =>
    intro t2 t3 t4 rest s _ hp hb
    rw [classify_of_invalid (valid_signature t2 t3 t4), exec_skip1_of_streaming _ hp (by simp [hb, recordLen])]
    exact congrArg _ (skipByte_eq hb)
  case append =>
    intro c rest t2 t3 t4 s hr hp hcap hb
    have hw : windowAt (s.buf ++ c) = some ⟨0xA5, 0x5A, t2, t3, t4⟩ := windowAt_eq_some.mpr ⟨rest, hb⟩
    rw [exec_append_of_invalid hp (descPending_of_streaming hr hp) hcap hw (valid_signature t2 t3 t4)]
    exact congrArg _ (skipByte_eq hb)

end

