-- ==== Sys2Proof/Proofs/SampleWindow.lean ====
section
/-!
PROOFS. What the decoder reads in a window (42_sample_sync_decoder.md): the fields as the source's shifts and masks
(R142), the three bits that decide validity (R141), and the byte an invalid window gives up (R145).
-/

namespace Sys2Proof.Machine

/-! ### The fields as shifts and masks -/

/-- R142: the mask `0x7FFF` drops nothing, since the seven bits of `W[1]` and the eight of `W[2]` make fifteen. -/
theorem angleOf_toNat (w : Window) :
    (angleOf w).toNat = ((w.w1.toNat >>> 1) ||| (w.w2.toNat <<< 7)) &&& 0x7FFF := by
  have low_bits : (w.w1.extractLsb' 1 7).toNat = w.w1.toNat >>> 1 := by
    rw [BitVec.extractLsb'_toNat, Nat.shiftRight_eq_div_pow]
    omega
  have fields : (angleOf w).toNat = (w.w1.toNat >>> 1) ||| (w.w2.toNat <<< 7) := by
    rw [angleOf, BitVec.toNat_append, low_bits, Nat.or_comm]
  rw [← fields]
  calc (angleOf w).toNat
      = (angleOf w).toNat % 2 ^ 15 := (Nat.mod_eq_of_lt (angleOf w).isLt).symm
    _ = (angleOf w).toNat &&& 0x7FFF := (Nat.and_two_pow_sub_one_eq_mod _ 15).symm

theorem distOf_toNat (w : Window) : (distOf w).toNat = w.w3.toNat ||| (w.w4.toNat <<< 8) := by
  rw [distOf, halfOf, BitVec.toNat_append, Nat.or_comm]

theorem qualityOf_toNat (w : Window) : (qualityOf w).toNat = (w.w0.toNat >>> 2) &&& 0x3F := by
  rw [qualityOf, BitVec.extractLsb'_toNat]
  exact (Nat.and_two_pow_sub_one_eq_mod _ 6).symm

theorem bitS_eq_decide (w : Window) : bitS w = decide (w.w0.toNat &&& 1 ≠ 0) := by
  have low_bit : bitS w = decide (w.w0.toNat % 2 = 1) := Nat.testBit_zero _
  rw [low_bit, Nat.and_one_is_mod, decide_eq_decide]
  omega

/-! ### The bits that decide validity -/

theorem valid_iff (w : Window) :
    valid w = true ↔ (w.w0.getLsbD 0 ≠ w.w0.getLsbD 1 ∧ w.w1.getLsbD 0 = true) := by
  simp [valid, okS, okC, bitS, bitNs, bitC]

end Sys2Proof.Machine

open Sys2Proof.Machine in
/-- Settles O1: each field of the decoded sample is its operand's form, given by one lemma per field. -/
theorem sampleFieldsFollowTheSourceExpressions : Obligations.SampleFieldsFollowTheSourceExpressions := by
  unfold Obligations.SampleFieldsFollowTheSourceExpressions
  exact fun w => ⟨angleOf_toNat w, distOf_toNat w, qualityOf_toNat w, bitS_eq_decide w⟩

open Sys2Proof.Machine in
/-- Settles O2: `valid_iff` names the three bits, so equal bits give equal validity. -/
theorem validityIsThreeBits : Obligations.ValidityIsThreeBits := by
  unfold Obligations.ValidityIsThreeBits
  refine ⟨valid_iff, ?_⟩
  intro w v hs hns hc
  rw [Bool.eq_iff_iff, valid_iff, valid_iff, hs, hns, hc]

open Sys2Proof Sys2Proof.Machine in
/-- Settles O20: where the item stands it runs `skipByte`, whose byte is the head of the window. -/
theorem skip1DropsOneByte : Obligations.Skip1DropsOneByte := by
  unfold Obligations.Skip1DropsOneByte
  intro w rest s hp hb
  have hk : recordLen ≤ s.buf.length := by simp [hb, Window.bytes, recordLen]
  rw [exec_skip1_of_streaming w hp hk]
  exact congrArg _ (skipByte_eq hb)

end

