-- ==== Sys2Proof/Proofs/EncodedWindow.lean ====
section
/-!
PROOFS. The window of an encoded sample (30_encoding.md R94) is valid and decodes to that sample, and the item of a valid
window takes the sample it decodes to (42_sample_sync_decoder.md R143, R144).
-/

namespace Sys2Proof.Machine

/-! ### The fields read back -/

@[simp] theorem qualityOf_enc (r : RawSample) : qualityOf (enc r) = r.quality :=
  calc qualityOf (enc r)
      = (r.quality ++ BitVec.ofBool (!r.startFlag)).extractLsb' 1 6 := BitVec.extractLsb'_append_eq_of_le (by decide)
    _ = r.quality := BitVec.extractLsb'_append_eq_left

@[simp] theorem angleOf_enc (r : RawSample) : angleOf (enc r) = r.angleRaw := by
  have low_bits : (enc r).w1.extractLsb' 1 7 = r.angleRaw.extractLsb' 0 7 := BitVec.extractLsb'_append_eq_left
  calc angleOf (enc r)
      = r.angleRaw.extractLsb' 7 8 ++ r.angleRaw.extractLsb' 0 7 := by rw [angleOf, low_bits, enc]
    _ = r.angleRaw.extractLsb' 0 15 := BitVec.extractLsb'_append_extractLsb'_eq_extractLsb' rfl
    _ = r.angleRaw := BitVec.extractLsb'_eq_self

/-- The two bytes of a 16-bit value make it up again (R52). -/
@[simp] theorem halfOf_loByte_hiByte (v : Half) : halfOf (loByte v) (hiByte v) = v :=
  calc halfOf (loByte v) (hiByte v)
      = v.extractLsb' 0 16 := BitVec.extractLsb'_append_extractLsb'_eq_extractLsb' rfl
    _ = v := BitVec.extractLsb'_eq_self

@[simp] theorem distOf_enc (r : RawSample) : distOf (enc r) = r.distRaw := halfOf_loByte_hiByte r.distRaw

/-! ### The condition bits read back -/

@[simp] theorem bitS_enc (r : RawSample) : bitS (enc r) = r.startFlag := by
  rw [bitS, enc, BitVec.getLsbD_append]
  simp

@[simp] theorem bitNs_enc (r : RawSample) : bitNs (enc r) = !r.startFlag := by
  rw [bitNs, enc, BitVec.getLsbD_append, BitVec.getLsbD_append]
  simp

@[simp] theorem bitC_enc (r : RawSample) : bitC (enc r) = true := by
  rw [bitC, enc, BitVec.getLsbD_append]
  simp

@[simp] theorem valid_enc (r : RawSample) : valid (enc r) = true := by
  simp [valid, okS, okC]

@[simp] theorem decodeWindow_enc (r : RawSample) : decodeWindow (enc r) = r := by
  simp [decodeWindow]

/-! ### The item of a valid window in `Streaming` -/

theorem exec_smpS_of_streaming {s : State} (q : BitVec 6) (a : BitVec 15) (d : BitVec 16) (hp : s.phase = .streaming)
    (hk : recordLen ≤ s.buf.length) : exec (.smpS q a d) s = .next (takeSample ⟨a, d, q, true⟩ s) :=
  onItem_of_ready (by simp [windowAvailable, hp]) hk

theorem exec_smpN_of_streaming {s : State} (q : BitVec 6) (a : BitVec 15) (d : BitVec 16) (hp : s.phase = .streaming)
    (hk : recordLen ≤ s.buf.length) : exec (.smpN q a d) s = .next (takeSample ⟨a, d, q, false⟩ s) :=
  onItem_of_ready (by simp [windowAvailable, hp]) hk

theorem exec_classify_of_valid {w : Window} {s : State} (hv : valid w = true) (hp : s.phase = .streaming)
    (hk : recordLen ≤ s.buf.length) : exec (classify w) s = .next (takeSample (decodeWindow w) s) := by
  cases hs : bitS w with
  | false =>
    have item : classify w = .smpN (qualityOf w) (angleOf w) (distOf w) := by simp [classify, hv, hs]
    rw [item, exec_smpN_of_streaming _ _ _ hp hk, decodeWindow, hs]
  | true =>
    have item : classify w = .smpS (qualityOf w) (angleOf w) (distOf w) := by simp [classify, hv, hs]
    rw [item, exec_smpS_of_streaming _ _ _ hp hk, decodeWindow, hs]

end Sys2Proof.Machine

end

