-- ==== Sys2Proof/Proofs/FrameAssembler.lean ====
section
/-!
PROOFS. Taking a sample where the frame buffer has room (43_frame_assembler.md R160 to R163): the sample goes behind what
stands after a possible completion, and the whole next state is that of one of two cases, told apart by `closesFrame`.
-/

namespace Sys2Proof.Machine

/-! ### Room and completion -/

theorem frameFull_of_room {s : State} (h : RoomBeyond s.curFrame.length s) : frameFull s = false := by
  unfold frameFull
  split
  next => rfl
  next cap hcap => exact decide_eq_false (Nat.not_le.mpr (h cap hcap))

theorem closesFrame_iff (r : RawSample) (s : State) :
    closesFrame r s = true ↔ r.startFlag = true ∧ s.seenStart = true ∧ s.curFrame ≠ [] := by
  simp [closesFrame, and_assoc]

variable {r : RawSample} {s : State}

/-- The model's test for a completion is the one `frameAtAppend` writes out (R161). -/
theorem afterClosing_curFrame_eq_frameAtAppend : (afterClosing r s).curFrame = frameAtAppend r s := by
  simp only [afterClosing_curFrame, closesFrame_iff, frameAtAppend]

theorem afterClosing_of_not_closes (hc : closesFrame r s = false) : afterClosing r s = s :=
  if_neg (ne_true_of_eq_false hc)

theorem afterClosing_of_closes (hc : closesFrame r s = true) :
    afterClosing r s = clearFrame (completeFrame s.curFrame s) :=
  if_pos hc

theorem frameAtAppend_of_not_closes (hc : closesFrame r s = false) : frameAtAppend r s = s.curFrame := by
  rw [← afterClosing_curFrame_eq_frameAtAppend, afterClosing_of_not_closes hc]

theorem frameAtAppend_of_closes (hc : closesFrame r s = true) : frameAtAppend r s = [] := by
  rw [← afterClosing_curFrame_eq_frameAtAppend, afterClosing_of_closes hc, clearFrame_curFrame]

/-! ### Taking a sample where there is room -/

theorem assemble_of_room (h : RoomBeyond (frameAtAppend r s).length s) :
    assemble r s = noteStart r.startFlag (appendSample r (afterClosing r s)) := by
  have room : frameFull (afterClosing r s) = false :=
    frameFull_of_room (by simpa [RoomBeyond, afterClosing_curFrame_eq_frameAtAppend] using h)
  simp [assemble, takeIn, room]

theorem takeSample_curFrame_of_room (h : RoomBeyond (frameAtAppend r s).length s) :
    (takeSample r s).curFrame = frameAtAppend r s ++ [r] := by
  rw [takeSample, assemble_of_room (s := emitSmp r (consume recordLen s)) h, noteStart_curFrame, appendSample_curFrame,
    afterClosing_curFrame_eq_frameAtAppend]
  rfl

/-- A sample that closes no frame joins the frame in progress (R162, R163). -/
theorem takeSample_of_not_closes (hc : closesFrame r s = false) (h : RoomBeyond s.curFrame.length s) :
    takeSample r s =
      { s with
        buf := s.buf.drop 5
        pc := s.pc + 5
        smpTap := s.smpTap ++ [r]
        curFrame := s.curFrame ++ [r]
        seenStart := s.seenStart || r.startFlag } := by
  have room : RoomBeyond (frameAtAppend r s).length s := frameAtAppend_of_not_closes hc ▸ h
  rw [takeSample, assemble_of_room (s := emitSmp r (consume recordLen s)) room,
    afterClosing_of_not_closes (s := emitSmp r (consume recordLen s)) hc]
  rfl

/-- A sample that closes the frame sends it through the corrector and the filter, and is the first of the next one
(R161, R166). -/
theorem takeSample_of_closes (hc : closesFrame r s = true) (h : RoomBeyond 0 s) :
    takeSample r s =
      { s with
        buf := s.buf.drop 5
        pc := s.pc + 5
        smpTap := s.smpTap ++ [r]
        rawfTap := s.rawfTap ++ [s.curFrame]
        corfTap := s.corfTap ++ [correct s.params s.curFrame]
        out := s.out ++ (if kept s.maxRange s.stride (correct s.params s.curFrame) = [] then []
          else [decodedOutput (kept s.maxRange s.stride (correct s.params s.curFrame))])
        curFrame := [r]
        seenStart := s.seenStart || r.startFlag } := by
  have room : RoomBeyond (frameAtAppend r s).length s := by rwa [frameAtAppend_of_closes hc]
  rw [takeSample, assemble_of_room (s := emitSmp r (consume recordLen s)) room,
    afterClosing_of_closes (s := emitSmp r (consume recordLen s)) hc, completeFrame_eq]
  simp only [List.isEmpty_iff]
  rfl

end Sys2Proof.Machine

open Sys2Proof Sys2Proof.Machine in
/-- Settles O16: `SMP.S` takes the sample, which closes the frame exactly in the second clause. -/
theorem smpSTakesAStartSample : Obligations.SmpSTakesAStartSample := by
  unfold Obligations.SmpSTakesAStartSample
  refine ⟨?opens, ?closes⟩
  case opens =>
    intro q a d s hp hk hopen hroom
    have not_closing : closesFrame ⟨a, d, q, true⟩ s = false := by
      rcases hopen with unseen | empty
      · simp [closesFrame, unseen]
      · simp [closesFrame, empty]
    rw [exec_smpS_of_streaming q a d hp hk, takeSample_of_not_closes not_closing hroom, Bool.or_true]
  case closes =>
    intro q a d s hp hk hseen hne hroom
    have closing : closesFrame ⟨a, d, q, true⟩ s = true := (closesFrame_iff _ s).mpr ⟨rfl, hseen, hne⟩
    rw [exec_smpS_of_streaming q a d hp hk, takeSample_of_closes closing hroom, Bool.or_true]

open Sys2Proof Sys2Proof.Machine in
/-- Settles O19: an encoded sample's window is the item that takes that sample, whatever its flag. -/
theorem everyDecodedSampleIsAppended : Obligations.EveryDecodedSampleIsAppended := by
  unfold Obligations.EveryDecodedSampleIsAppended
  intro r s hp hk hroom
  have item : exec (classify (enc r)) s = .next (takeSample r s) := by
    rw [exec_classify_of_valid (valid_enc r) hp hk, decodeWindow_enc]
  exact ⟨takeSample r s, item, takeSample_curFrame_of_room hroom⟩

end

