-- ==== Sys2Proof/Proofs/CorrectorSort.lean ====
section
/-!
SUPPORT. When a frame is degenerate, and the stable sort of the corrector (44_frame_corrector.md R173, R178). With the
obligations of these rules.
-/

namespace Sys2Proof.Machine

theorem degenerate_map_toCor_iff (F : List RawSample) :
    degenerate (F.map toCor) = true ↔ ∀ r ∈ F, r.distRaw = 0 := by
  simp [degenerate, hasReturn, toCor]

theorem correct_of_no_return (p : Params) {F : List RawSample} (h : ∀ r ∈ F, r.distRaw = 0) :
    correct p F = F.map toCor :=
  if_pos ((degenerate_map_toCor_iff F).mpr h)

theorem correct_of_return (p : Params) {F : List RawSample} (h : ∃ r ∈ F, r.distRaw ≠ 0) :
    correct p F = sortByAng (retune p (F.map toCor)) := by
  obtain ⟨r, hr, hne⟩ := h
  exact if_neg fun hd => hne ((degenerate_map_toCor_iff F).mp hd r hr)

theorem sortByAng_perm (C : List CorSample) : (sortByAng C).Perm C := List.perm_insertionSort _ C

theorem sortByAng_ascending (C : List CorSample) : (sortByAng C).Pairwise fun a b => a.ang ≤ b.ang :=
  have : Std.Total fun a b : CorSample => a.ang ≤ b.ang := ⟨fun a b => le_total a.ang b.ang⟩
  have : IsTrans CorSample fun a b => a.ang ≤ b.ang := ⟨fun _ _ _ => le_trans⟩
  List.pairwise_insertionSort _ C

/-- An ascending selection of the samples, in arrival order, is still found in that order after the sort. -/
theorem sublist_sortByAng {C D : List CorSample} (hasc : D.Pairwise fun a b => a.ang ≤ b.ang) (hsub : D.Sublist C) :
    D.Sublist (sortByAng C) :=
  List.sublist_insertionSort hasc hsub

theorem filter_ang_eq_ascending (x : Rat) (C : List CorSample) :
    (C.filter fun c => c.ang = x).Pairwise fun a b => a.ang ≤ b.ang := by
  refine List.pairwise_of_forall_mem_list fun a ha b hb => ?_
  have hax : a.ang = x := by simpa using List.of_mem_filter ha
  have hbx : b.ang = x := by simpa using List.of_mem_filter hb
  exact (hax.trans hbx.symm).le

/-- Stability (R178): the samples at `x` are an ascending selection, so the sort keeps their order; being a
rearrangement, it brings no further one to that angle. -/
theorem sortByAng_filter_ang_eq (x : Rat) (C : List CorSample) :
    ((sortByAng C).filter fun c => c.ang = x) = C.filter fun c => c.ang = x := by
  have kept_order : (C.filter fun c => c.ang = x).Sublist ((sortByAng C).filter fun c => c.ang = x) := by
    simpa using (sublist_sortByAng (filter_ang_eq_ascending x C) List.filter_sublist).filter fun c => c.ang = x
  have same_length := ((sortByAng_perm C).filter fun c => c.ang = x).length_eq
  exact (kept_order.eq_of_length same_length.symm).symm

end Sys2Proof.Machine

open Sys2Proof Sys2Proof.Machine in
/-- Settles O49: the sort is the library's insertion sort on the angle, stable by `sortByAng_filter_ang_eq`; a frame with
a return is not degenerate. -/
theorem correctedFrameIsStablySorted : Obligations.CorrectedFrameIsStablySorted := by
  unfold Obligations.CorrectedFrameIsStablySorted
  exact ⟨fun C => ⟨sortByAng_perm C, sortByAng_ascending C, fun x => sortByAng_filter_ang_eq x C⟩,
    fun p _ h => correct_of_return p h⟩

open Sys2Proof Sys2Proof.Machine in
/-- Settles O48: a frame without any return is degenerate. -/
theorem degenerateFrameIsReturnedUnmodified : Obligations.DegenerateFrameIsReturnedUnmodified := by
  unfold Obligations.DegenerateFrameIsReturnedUnmodified
  exact fun p _ h => correct_of_no_return p h

end

