-- ==== Sys2Proof/Proofs/NormalizerFilter.lean ====
section
/-!
SUPPORT. The normalizer's two scalings, the filter's range test and the samples it visits (45_normalizer_filter.md R190,
R191, R194, R195). With the obligations of these rules.
-/

namespace Sys2Proof.Machine

/-! ### The scalings -/

theorem angleDeg_mul (a : BitVec 15) : angleDeg a * 64 = (a.toNat : Rat) := div_mul_cancel₀ _ (by decide)

theorem angleDeg_nonneg (a : BitVec 15) : 0 ≤ angleDeg a := div_nonneg (Nat.cast_nonneg _) (by decide)

theorem angleDeg_le (a : BitVec 15) : angleDeg a ≤ 32767 / 64 := by
  have raw : (a.toNat : Rat) ≤ 32767 := by exact_mod_cast Nat.le_of_lt_succ a.isLt
  exact div_le_div_of_nonneg_right raw (by decide)

theorem distanceMm_mul (d : BitVec 16) : distanceMm d * 4 = (d.toNat : Rat) := div_mul_cancel₀ _ (by decide)

theorem distanceMm_nonneg (d : BitVec 16) : 0 ≤ distanceMm d := div_nonneg (Nat.cast_nonneg _) (by decide)

theorem distanceMm_le (d : BitVec 16) : distanceMm d ≤ 65535 / 4 := by
  have raw : (d.toNat : Rat) ≤ 65535 := by exact_mod_cast Nat.le_of_lt_succ d.isLt
  exact div_le_div_of_nonneg_right raw (by decide)

theorem distanceMm_eq_zero_iff (d : BitVec 16) : distanceMm d = 0 ↔ d = 0 := by
  rw [BitVec.toNat_eq]
  simp [distanceMm]

/-! ### The range test -/

/-- A sample passes exactly when neither of the two reasons to drop it holds. -/
theorem inRange_iff (m : Half) (c : CorSample) :
    inRange m c = true ↔ 0 < distanceMm c.distRaw ∧ distanceMm c.distRaw < (m.toNat : Rat) := by
  simp [inRange]

theorem inRange_eq_false_of_eq {m : Half} {c : CorSample} (h : distanceMm c.distRaw = (m.toNat : Rat)) :
    inRange m c = false := by
  rw [← Bool.not_eq_true, inRange_iff]
  exact fun passes => passes.2.ne h

/-! ### The samples visited -/

/-- The samples visited of a frame's remainder `C`, whose first sample stands at position `k` of the frame. -/
def visitedFrom (st k : Nat) (C : List CorSample) : List CorSample :=
  ((C.zipIdx k).filter fun p => p.2 % st == 0).map fun p => p.1

theorem visited_eq_visitedFrom (st : Nat) (C : List CorSample) : visited st C = visitedFrom st 0 C := rfl

@[simp] theorem visitedFrom_nil (st k : Nat) : visitedFrom st k [] = [] := rfl

theorem visitedFrom_cons_of_dvd {st k : Nat} (h : st ∣ k) (c : CorSample) (C : List CorSample) :
    visitedFrom st k (c :: C) = c :: visitedFrom st (k + 1) C := by
  simp [visitedFrom, List.zipIdx_cons, Nat.mod_eq_zero_of_dvd h]

theorem visitedFrom_cons_of_not_dvd {st k : Nat} (h : ¬ st ∣ k) (c : CorSample) (C : List CorSample) :
    visitedFrom st k (c :: C) = visitedFrom st (k + 1) C := by
  simp [visitedFrom, List.zipIdx_cons, mt Nat.dvd_of_mod_eq_zero h]

/-- With `r` samples to pass over before the next multiple of the stride, sample `j` visited is the one `j` strides
further on. -/
theorem getElem?_visitedFrom {st k r : Nat} (C : List CorSample) (hr : r < st) (hd : st ∣ k + r) (j : Nat) :
    (visitedFrom st k C)[j]? = C[r + j * st]? := by
  induction C generalizing k r j with
  | nil => simp
  | cons c C ih =>
    cases r with
    | zero =>
      rw [visitedFrom_cons_of_dvd (k := k) hd]
      cases j with
      | zero => simp
      | succ j =>
        have next_multiple : st ∣ k + 1 + (st - 1) := by
          rw [show k + 1 + (st - 1) = k + st by omega]
          exact Nat.dvd_add hd (Nat.dvd_refl st)
        have position : 0 + (j + 1) * st = (st - 1 + j * st) + 1 := by rw [Nat.add_one_mul]; omega
        rw [position, List.getElem?_cons_succ, List.getElem?_cons_succ]
        exact ih (Nat.sub_one_lt_of_lt hr) next_multiple j
    | succ r =>
      have passed_over : ¬ st ∣ k := fun hk => Nat.not_dvd_of_pos_of_lt r.succ_pos hr ((Nat.dvd_add_right hk).mp hd)
      rw [visitedFrom_cons_of_not_dvd passed_over, Nat.add_right_comm r 1, List.getElem?_cons_succ]
      exact ih (Nat.lt_of_succ_lt hr) (by rwa [Nat.add_assoc, Nat.add_comm 1]) j

theorem getElem?_visited {st : Nat} (h : st ≠ 0) (C : List CorSample) (j : Nat) :
    (visited st C)[j]? = C[j * st]? := by
  rw [visited_eq_visitedFrom, getElem?_visitedFrom C (Nat.pos_of_ne_zero h) (Nat.dvd_zero st), Nat.zero_add]

@[simp] theorem visited_one (C : List CorSample) : visited 1 C = C := by
  refine List.ext_getElem? fun j => ?_
  rw [getElem?_visited one_ne_zero, Nat.mul_one]

/-- A stride of at least the frame's length leaves the frame after its first sample. -/
theorem visited_of_length_le {st : Nat} {C : List CorSample} (h : st ≠ 0) (hlen : C.length ≤ st) :
    visited st C = C.take 1 := by
  refine List.ext_getElem? fun j => ?_
  rw [getElem?_visited h]
  cases j with
  | zero => simp
  | succ j =>
    have beyond : C.length ≤ (j + 1) * st := hlen.trans (Nat.le_mul_of_pos_left st j.succ_pos)
    rw [List.getElem?_eq_none beyond, List.getElem?_take_eq_none (Nat.le_add_left 1 j)]

end Sys2Proof.Machine

open Sys2Proof Sys2Proof.Machine in
/-- Settles O56: position `j` of the visited samples is `getElem?_visited`, from which the two corner strides follow; the
range test filters what was visited by the definition of `kept`. -/
theorem filterVisitsEveryStridethPosition : Obligations.FilterVisitsEveryStridethPosition := by
  unfold Obligations.FilterVisitsEveryStridethPosition
  exact ⟨fun _ C j h => getElem?_visited h C j, visited_one, fun _ _ h hlen => visited_of_length_le h hlen,
    fun _ _ _ => rfl⟩

open Sys2Proof.Machine in
/-- Settles O45: each scaling is the raw word over a constant, whose range is the word's. -/
theorem scalingsAreExact : Obligations.ScalingsAreExact := by
  unfold Obligations.ScalingsAreExact
  exact ⟨fun a => ⟨angleDeg_mul a, angleDeg_nonneg a, angleDeg_le a⟩,
    fun d => ⟨distanceMm_mul d, distanceMm_nonneg d, distanceMm_le d, distanceMm_eq_zero_iff d⟩⟩

open Sys2Proof Sys2Proof.Machine in
/-- Settles O54: the two reasons to drop a sample are the two ends of the interval, `MAXRANGE` itself among them. -/
theorem rangeTestIsAnOpenInterval : Obligations.RangeTestIsAnOpenInterval := by
  unfold Obligations.RangeTestIsAnOpenInterval
  exact fun m c => ⟨inRange_iff m c, inRange_eq_false_of_eq⟩

end

