-- ==== Sys2Proof/Proofs/SessionControl.lean ====
section
/-!
SUPPORT. What `RESET` answers in `Closed` and outside it, and where clearing the session changes nothing
(46_session_control.md R207, R210). With the obligation of these rules.
-/

namespace Sys2Proof.Machine

/-! ### The guard on the phase -/

theorem unlessClosed_of_closed {s : State} (f : State → State) (h : s.phase = .closed) : unlessClosed f s = s := if_pos h

theorem unlessClosed_of_open {s : State} (f : State → State) (h : s.phase ≠ .closed) : unlessClosed f s = f s := if_neg h

/-! ### `RESET` -/

theorem exec_reset_of_closed {s : State} (h : s.phase = .closed) : exec .reset s = .next s :=
  congrArg Host.Outcome.next (unlessClosed_of_closed clearSession h)

theorem exec_reset_of_open {s : State} (h : s.phase ≠ .closed) : exec .reset s = .next (clearSession s) :=
  congrArg Host.Outcome.next (unlessClosed_of_open clearSession h)

@[simp] theorem clearSession_clearSession (s : State) : clearSession (clearSession s) = clearSession s := rfl

/-- R35(a): what `RESET` writes is what an idle block holds already. -/
theorem clearSession_of_idle {s : State} (fresh : IdleIsFresh s) (hidle : s.phase = .idle) : clearSession s = s := by
  obtain ⟨hbuf, hpc, hdesc, hseen, hframe⟩ := fresh hidle
  cases s
  subst hidle hbuf hpc hdesc hseen hframe
  rfl

end Sys2Proof.Machine

open Sys2Proof Sys2Proof.Machine in
/-- Settles O33: outside `Closed` the event is `clearSession`, which leaves an idle block and its own result as they are;
in `Closed` it answers the state it was given. -/
theorem resetClearsTheSession : Obligations.ResetClearsTheSession := by
  unfold Obligations.ResetClearsTheSession
  refine ⟨fun s hopen => exec_reset_of_open hopen, fun s hclosed => exec_reset_of_closed hclosed, ?idle, ?twice⟩
  case idle =>
    intro s hinv hidle
    have hopen : s.phase ≠ .closed := by simp [hidle]
    rw [exec_reset_of_open hopen, clearSession_of_idle hinv.idle hidle]
  case twice =>
    intro s t first
    by_cases hphase : s.phase = .closed
    · rw [exec_reset_of_closed hphase] at first
      cases first
      exact exec_reset_of_closed hphase
    · rw [exec_reset_of_open hphase] at first
      cases first
      have hopen : (clearSession s).phase ≠ .closed := by simp
      rw [exec_reset_of_open hopen, clearSession_clearSession]

end

