-- ==== Sys2Proof/Proofs/ExceptionalConditions.lean ====
section
/-!
PROOFS. The two conditions that are handled by doing nothing (60_exceptions.md): an event in `Closed`, which is dropped
(R225), and a frame without any return, which passes uncorrected and of which the range test keeps no sample (R222).
-/

namespace Sys2Proof.Machine

/-! ### The events in `Closed` -/

theorem exec_append_of_closed {s : State} (chunk : List Byte) (h : s.phase = .closed) :
    exec (.append chunk) s = .next s :=
  congrArg Host.Outcome.next (unlessClosed_of_closed (deliver chunk) h)

theorem exec_close_of_closed {s : State} (h : s.phase = .closed) : exec .close s = .next s :=
  congrArg Host.Outcome.next (unlessClosed_of_closed closeBlock h)

theorem exec_config_of_closed {s : State} (m st : Half) (h : s.phase = .closed) : exec (.config m st) s = .next s :=
  congrArg Host.Outcome.next (unlessClosed_of_closed (configure m st) h)

/-! ### A frame without any return -/

theorem visited_subset (st : Nat) (C : List CorSample) : visited st C ⊆ C := by
  intro c hc
  obtain ⟨⟨c, k⟩, hp, rfl⟩ := List.mem_map.mp hc
  exact List.fst_mem_of_mem_zipIdx (List.mem_of_mem_filter hp)

theorem inRange_of_no_return (m : Half) {c : CorSample} (h : c.distRaw = 0) : inRange m c = false := by
  have no_distance : distanceMm c.distRaw = 0 := (distanceMm_eq_zero_iff c.distRaw).mpr h
  exact Bool.eq_false_iff.mpr fun passes => ((inRange_iff m c).mp passes).1.ne' no_distance

/-- No miss passes the range test, whatever the settings (R195). -/
theorem kept_of_no_return (m st : Half) {C : List CorSample} (h : ∀ c ∈ C, c.distRaw = 0) : kept m st C = [] :=
  List.filter_eq_nil_iff.mpr fun c hc =>
    Bool.eq_false_iff.mp (inRange_of_no_return m (h c (visited_subset st.toNat C hc)))

theorem kept_map_toCor_of_no_return (m st : Half) {F : List RawSample} (h : ∀ r ∈ F, r.distRaw = 0) :
    kept m st (F.map toCor) = [] :=
  kept_of_no_return m st (List.forall_mem_map.mpr h)

end Sys2Proof.Machine

open Sys2Proof Sys2Proof.Machine in
/-- Settles O37: each of the four events answers the state it was given. -/
theorem closedIgnoresEveryEvent : Obligations.ClosedIgnoresEveryEvent := by
  unfold Obligations.ClosedIgnoresEveryEvent
  exact fun c m st _ h =>
    ⟨exec_append_of_closed c h, exec_reset_of_closed h, exec_close_of_closed h, exec_config_of_closed m st h⟩

open Sys2Proof Sys2Proof.Machine in
/-- Settles O59: the sample closes the frame, which the corrector returns as it is and the filter drops whole. -/
theorem degenerateFrameEmitsNothing : Obligations.DegenerateFrameEmitsNothing := by
  unfold Obligations.DegenerateFrameEmitsNothing
  intro q a d s hp hk hseen hne hmiss hroom
  have closing : closesFrame ⟨a, d, q, true⟩ s = true := (closesFrame_iff _ s).mpr ⟨rfl, hseen, hne⟩
  have uncorrected : correct s.params s.curFrame = s.curFrame.map toCor := correct_of_no_return s.params hmiss
  have nothing_kept : kept s.maxRange s.stride (s.curFrame.map toCor) = [] :=
    kept_map_toCor_of_no_return s.maxRange s.stride hmiss
  refine ⟨takeSample ⟨a, d, q, true⟩ s, exec_smpS_of_streaming q a d hp hk, ?_⟩
  rw [takeSample_of_closes closing hroom, uncorrected, nothing_kept]
  exact ⟨List.append_nil s.out, rfl, rfl, rfl⟩

end

