-- ==== Sys2Proof/Proofs/InstructionEncoding.lean ====
section
/-!
PROOFS. The decoder and the encoder against each other, and the window as one 40-bit word (30_encoding.md R80 to R94). A
valid window is put together again from the fields it decodes to, byte by byte; the events and commands are read off the
tables.
-/

namespace Sys2Proof

open Machine

/-! ### The window of a sample, byte by byte -/

theorem enc_w0_toNat (r : RawSample) :
    (enc r).w0.toNat = (r.quality.toNat <<< 2) ||| ((1 - r.startFlag.toNat) <<< 1) ||| r.startFlag.toNat := by
  have inverted : (BitVec.ofBool (!r.startFlag)).toNat = 1 - r.startFlag.toNat := by cases r.startFlag <;> rfl
  rw [enc, BitVec.toNat_append, BitVec.toNat_append, inverted, BitVec.toNat_ofBool, Nat.shiftLeft_or_distrib,
    ← Nat.shiftLeft_add]

theorem enc_w1_toNat (r : RawSample) : (enc r).w1.toNat = ((r.angleRaw.toNat &&& 0x7F) <<< 1) ||| 1 := by
  rw [enc, BitVec.toNat_append, BitVec.extractLsb'_toNat, ← Nat.and_two_pow_sub_one_eq_mod]
  rfl

theorem extractLsb'_byte_toNat {n : Nat} (v : BitVec n) (k : Nat) :
    (v.extractLsb' k 8).toNat = (v.toNat >>> k) &&& 0xFF := by
  rw [BitVec.extractLsb'_toNat, ← Nat.and_two_pow_sub_one_eq_mod]

/-! ### A valid window is the encoding of what it decodes to -/

theorem ofBool_getLsbD {n : Nat} (v : BitVec n) (i : Nat) : BitVec.ofBool (v.getLsbD i) = v.extractLsb' i 1 := by
  apply BitVec.eq_of_getLsbD_eq
  intro j hj
  obtain rfl : j = 0 := by omega
  simp

theorem extractLsb'_append_checkBit (b : Byte) : b.extractLsb' 1 7 ++ BitVec.ofBool (b.getLsbD 0) = b :=
  calc b.extractLsb' 1 7 ++ BitVec.ofBool (b.getLsbD 0)
      = b.extractLsb' 0 8 := by
        rw [ofBool_getLsbD]; exact BitVec.extractLsb'_append_extractLsb'_eq_extractLsb' rfl
    _ = b := BitVec.extractLsb'_eq_self

theorem extractLsb'_append_startBits (b : Byte) :
    b.extractLsb' 2 6 ++ BitVec.ofBool (b.getLsbD 1) ++ BitVec.ofBool (b.getLsbD 0) = b := by
  have upper_bits : b.extractLsb' 2 6 ++ BitVec.ofBool (b.getLsbD 1) = b.extractLsb' 1 7 := by
    rw [ofBool_getLsbD]; exact BitVec.extractLsb'_append_extractLsb'_eq_extractLsb' rfl
  rw [upper_bits]
  exact extractLsb'_append_checkBit b

theorem loByte_halfOf (lo hi : Byte) : loByte (halfOf lo hi) = lo := BitVec.extractLsb'_append_eq_right

theorem hiByte_halfOf (lo hi : Byte) : hiByte (halfOf lo hi) = hi := BitVec.extractLsb'_append_eq_left

theorem extractLsb'_angleOf_low (w : Window) : (angleOf w).extractLsb' 0 7 = w.w1.extractLsb' 1 7 :=
  BitVec.extractLsb'_append_eq_right

theorem extractLsb'_angleOf_high (w : Window) : (angleOf w).extractLsb' 7 8 = w.w2 :=
  BitVec.extractLsb'_append_eq_left

theorem enc_decodeWindow {w : Window} (hv : valid w = true) : enc (decodeWindow w) = w := by
  obtain ⟨start_bits, check_bit⟩ := (valid_iff w).mp hv
  have inverted : (!bitS w) = w.w0.getLsbD 1 := by
    rw [bitS]; exact (Bool.eq_not_of_ne start_bits.symm).symm
  have first : qualityOf w ++ BitVec.ofBool (!bitS w) ++ BitVec.ofBool (bitS w) = w.w0 := by
    rw [inverted]; exact extractLsb'_append_startBits w.w0
  have second : w.w1.extractLsb' 1 7 ++ BitVec.ofBool true = w.w1 := by
    rw [← check_bit]; exact extractLsb'_append_checkBit w.w1
  simp only [enc, decodeWindow, first, extractLsb'_angleOf_low, second, extractLsb'_angleOf_high, distOf, loByte_halfOf,
    hiByte_halfOf]

/-! ### Classification -/

theorem classify_of_valid {w : Window} (hv : valid w = true) :
    classify w = if (decodeWindow w).startFlag
      then .smpS (decodeWindow w).quality (decodeWindow w).angleRaw (decodeWindow w).distRaw
      else .smpN (decodeWindow w).quality (decodeWindow w).angleRaw (decodeWindow w).distRaw :=
  if_pos hv

theorem classify_enc (r : RawSample) :
    classify (enc r) = if r.startFlag then .smpS r.quality r.angleRaw r.distRaw
      else .smpN r.quality r.angleRaw r.distRaw := by
  rw [classify_of_valid (valid_enc r), decodeWindow_enc]

theorem classify_wf (w : Window) : (classify w).wf = true := by
  cases hv : valid w with
  | false => rw [classify_of_invalid hv]; simp [Instr.wf, hv]
  | true => rw [classify_of_valid hv]; split <;> rfl

theorem classify_format (w : Window) : (classify w).format = .sample := by
  cases hv : valid w with
  | false => rw [classify_of_invalid hv]; rfl
  | true => rw [classify_of_valid hv]; split <;> rfl

/-- Every window is the encoding of its item (R85, R94). -/
theorem encode_classify (w : Window) : encode (classify w) = w.bytes := by
  cases hv : valid w with
  | false => rw [classify_of_invalid hv]; rfl
  | true =>
    have whole : encode (classify w) = (enc (decodeWindow w)).bytes := by
      rw [classify_of_valid hv]
      split
      next start => rw [encode, ← start]
      next normal => rw [encode, ← Bool.eq_false_iff.mpr normal]
    rw [whole, enc_decodeWindow hv]

/-! ### The 40-bit word -/

theorem bitS_ofWord (v : BitVec 40) : bitS (.ofWord v) = v.getLsbD 0 := by simp [bitS, Window.ofWord]
theorem bitNs_ofWord (v : BitVec 40) : bitNs (.ofWord v) = v.getLsbD 1 := by simp [bitNs, Window.ofWord]
theorem bitC_ofWord (v : BitVec 40) : bitC (.ofWord v) = v.getLsbD 8 := by simp [bitC, Window.ofWord]

theorem extractLsb'_extractLsb' {n j m i k : Nat} (v : BitVec n) (h : i + k ≤ m) :
    (v.extractLsb' j m).extractLsb' i k = v.extractLsb' (j + i) k := by
  apply BitVec.eq_of_getLsbD_eq
  intro b hb
  have inside : i + b < m := by omega
  simp [hb, inside, Nat.add_assoc]

theorem qualityOf_ofWord (v : BitVec 40) : qualityOf (.ofWord v) = v.extractLsb' 2 6 :=
  extractLsb'_extractLsb' v (by decide)

theorem angleOf_ofWord (v : BitVec 40) : angleOf (.ofWord v) = v.extractLsb' 9 15 := by
  have low_bits : (v.extractLsb' 8 8).extractLsb' 1 7 = v.extractLsb' 9 7 :=
    extractLsb'_extractLsb' v (by decide)
  rw [angleOf, Window.ofWord, low_bits]
  exact BitVec.extractLsb'_append_extractLsb'_eq_extractLsb' rfl

theorem distOf_ofWord (v : BitVec 40) : distOf (.ofWord v) = v.extractLsb' 24 16 :=
  BitVec.extractLsb'_append_extractLsb'_eq_extractLsb' rfl

/-- The mask `0x103` keeps the start bit, the inverted start bit and the check bit (R83). -/
theorem and_mask_eq (v : BitVec 40) :
    v &&& 0x103#40 = (BitVec.ofBool (v.getLsbD 8)).setWidth 40 <<< 8 |||
      (BitVec.ofBool (v.getLsbD 1)).setWidth 40 <<< 1 ||| (BitVec.ofBool (v.getLsbD 0)).setWidth 40 := by
  apply BitVec.eq_of_getLsbD_eq
  intro i hi
  interval_cases i <;> simp

theorem classify_ofWord (v : BitVec 40) :
    classify (.ofWord v) =
      if v.getLsbD 8 = true ∧ v.getLsbD 0 = true ∧ v.getLsbD 1 = false then
        .smpS (v.extractLsb' 2 6) (v.extractLsb' 9 15) (v.extractLsb' 24 16)
      else if v.getLsbD 8 = true ∧ v.getLsbD 0 = false ∧ v.getLsbD 1 = true then
        .smpN (v.extractLsb' 2 6) (v.extractLsb' 9 15) (v.extractLsb' 24 16)
      else .skip1 (.ofWord v) := by
  unfold classify
  rw [valid, okS, okC, bitS_ofWord, bitNs_ofWord, bitC_ofWord, qualityOf_ofWord, angleOf_ofWord, distOf_ofWord]
  cases v.getLsbD 8 <;> cases v.getLsbD 0 <;> cases v.getLsbD 1 <;> rfl

end Sys2Proof

open Sys2Proof Sys2Proof.Machine in
/-- Settles O5: a sample's window decodes to the sample, an invalid window is its own encoding, and for an event the two
bytes of each operand make it up again. -/
theorem decodeOfEncode : Obligations.DecodeOfEncode := by
  unfold Obligations.DecodeOfEncode
  intro i hwf
  cases i with
  | desc t2 t3 t4 t5 t6 => rfl
  | smpS q a d => exact congrArg Except.ok (classify_enc ⟨a, d, q, true⟩)
  | smpN q a d => exact congrArg Except.ok (classify_enc ⟨a, d, q, false⟩)
  | skip1 w => exact congrArg Except.ok (classify_of_invalid (by simpa [Instr.wf] using hwf))
  | append chunk => rfl
  | reset => rfl
  | close => rfl
  | config m st =>
    have read : decode .event (encode (.config m st)) =
      .ok (.config (halfOf (loByte m) (hiByte m)) (halfOf (loByte st) (hiByte st))) := rfl
    rw [Instr.format, read, halfOf_loByte_hiByte, halfOf_loByte_hiByte]
  | cmdScan => rfl
  | cmdStop => rfl

open Sys2Proof Sys2Proof.Machine in
/-- Settles O6: the bytes of each format are those its decoder matched, and a window is `encode_classify`. -/
theorem encodeOfDecode : Obligations.EncodeOfDecode := by
  unfold Obligations.EncodeOfDecode
  intro f bs i hf h
  cases f with
  | event => exact absurd rfl hf
  | descriptor =>
    simp only [decode, decodeDescriptor] at h
    split at h
    · split at h
      next signature =>
        obtain ⟨rfl, rfl⟩ := signature
        cases h
        exact ⟨rfl, rfl, rfl⟩
      · cases h
    · cases h
  | sample =>
    simp only [decode, decodeSample] at h
    split at h
    next b0 b1 b2 b3 b4 =>
      cases h
      exact ⟨encode_classify ⟨b0, b1, b2, b3, b4⟩, classify_wf _, classify_format _⟩
    · cases h
  | command =>
    simp only [decode, decodeCommand] at h
    split at h
    · split at h
      next scan =>
        obtain ⟨rfl, rfl⟩ := scan
        cases h
        exact ⟨rfl, rfl, rfl⟩
      · split at h
        next stop =>
          obtain ⟨rfl, rfl⟩ := stop
          cases h
          exact ⟨rfl, rfl, rfl⟩
        · cases h
    · cases h

open Sys2Proof Sys2Proof.Machine in
/-- Settles O4: one lemma per byte, the earlier lemmas on `enc` for the one direction and `enc_decodeWindow` for the
other. -/
theorem encoderAndDecoderAreInverse : Obligations.EncoderAndDecoderAreInverse := by
  unfold Obligations.EncoderAndDecoderAreInverse
  refine ⟨fun r => ⟨enc_w0_toNat r, enc_w1_toNat r, extractLsb'_byte_toNat r.angleRaw 7,
    extractLsb'_byte_toNat r.distRaw 0, extractLsb'_byte_toNat r.distRaw 8⟩,
    fun r => ⟨valid_enc r, decodeWindow_enc r⟩, fun w => enc_decodeWindow⟩

open Sys2Proof Sys2Proof.Machine in
/-- Settles O3: the masked word is fixed by three bits of the word, and `classify_ofWord` decides on the same three. -/
theorem fortyBitWordClassification : Obligations.FortyBitWordClassification := by
  unfold Obligations.FortyBitWordClassification
  intro v
  rw [classify_ofWord, and_mask_eq]
  cases v.getLsbD 8 <;> cases v.getLsbD 0 <;> cases v.getLsbD 1 <;> rfl

/-- Settles O7: the decoder evaluated on the twelve words. -/
theorem writtenOutWordsDecode : Obligations.WrittenOutWordsDecode := by
  unfold Obligations.WrittenOutWordsDecode
  decide

/-- Settles O40: the encoder's two rows, and the block's part in a command, which is `passBy`. -/
theorem commandsPassTheBlockBy : Obligations.CommandsPassTheBlockBy := by
  unfold Obligations.CommandsPassTheBlockBy
  exact fun _ => ⟨rfl, rfl, rfl, rfl⟩

end

