-- ==== Sys2Proof/Proofs/SamplePath.lean ====
section
/-!
PROOFS. What running through the stream can do (40_byte_accumulator_pass.md R112 to R115): the cursor moves over bytes it
leaves behind, or the one fault is taken. Said once of a sample taken, and from it of a window, the sample loop and the
pass.
-/

namespace Sys2Proof.Machine

/-- What taking the fault leaves (R224). -/
structure FaultTaken (t : State) : Prop where
  fault : t.fault = .bufferGrowthFailure
  phase : t.phase = .closed
  buf : t.buf = []
  curFrame : t.curFrame = []
  seenStart : t.seenStart = false

theorem raiseBufferGrowthFailure_faultTaken (s : State) : FaultTaken (raiseBufferGrowthFailure s) :=
  ⟨rfl, rfl, rfl, rfl, rfl⟩

theorem not_faultTaken_of_open {s : State} (h : s.phase ≠ .closed) : ¬ FaultTaken s := fun hf => h hf.phase

/-! ### The relation -/

/-- `t` has the stream of `s` from its own cursor on, and no new fault. -/
structure ReadsOn (s t : State) : Prop where
  fault : t.fault = s.fault
  buf : t.buf = s.buf.drop (t.pc - s.pc)
  ends : t.pc + t.buf.length = s.pc + s.buf.length

/-- `t` may follow `s` on the way through the stream. -/
structure Advances (s t : State) : Prop where
  settings : SameSettings s t
  pc_le : s.pc ≤ t.pc
  outcome : FaultTaken t ∨ ReadsOn s t

theorem SameSettings.trans {s t u : State} (hst : SameSettings s t) (htu : SameSettings t u) : SameSettings s u :=
  ⟨htu.maxRange.trans hst.maxRange, htu.stride.trans hst.stride, htu.params.trans hst.params,
    htu.pending.trans hst.pending⟩

theorem Advances.refl (s : State) : Advances s s :=
  ⟨⟨rfl, rfl, rfl, rfl⟩, le_rfl, .inr ⟨rfl, by simp, rfl⟩⟩

theorem ReadsOn.trans {s t u : State} (hst : ReadsOn s t) (htu : ReadsOn t u) (hpc : s.pc ≤ t.pc) (hpc' : t.pc ≤ u.pc) :
    ReadsOn s u where
  fault := htu.fault.trans hst.fault
  buf := by
    rw [htu.buf, hst.buf, List.drop_drop]
    congr 1
    omega
  ends := htu.ends.trans hst.ends

/-- Advances compose as long as no fault was taken in between. -/
theorem Advances.trans {s t u : State} (hst : Advances s t) (hopen : t.phase ≠ .closed) (htu : Advances t u) :
    Advances s u where
  settings := hst.settings.trans htu.settings
  pc_le := hst.pc_le.trans htu.pc_le
  outcome := htu.outcome.imp id fun on =>
    (hst.outcome.resolve_left (not_faultTaken_of_open hopen)).trans on hst.pc_le htu.pc_le

theorem Advances.fault_cases {s t : State} (h : Advances s t) : FaultTaken t ∨ t.fault = s.fault :=
  h.outcome.imp id ReadsOn.fault

/-- Every read of the stream from the new cursor on gives what it gave (R50, R66). -/
theorem ReadsOn.memRead_eq {s t : State} (h : ReadsOn s t) (hpc : s.pc ≤ t.pc) {addr : Nat} (ha : t.pc ≤ addr)
    (n : Nat) : memRead addr n t = memRead addr n s := by
  have same_bytes : t.buf.drop (addr - t.pc) = s.buf.drop (addr - s.pc) := by
    rw [h.buf, List.drop_drop]
    congr 1
    omega
  simp only [memRead, h.ends, same_bytes, ha, hpc.trans ha]

/-! ### Consuming -/

theorem consume_readsOn {k : Nat} {s : State} (hk : k ≤ s.buf.length) : ReadsOn s (consume k s) where
  fault := rfl
  buf := by simp
  ends := by
    simp only [consume_pc, consume_buf, List.length_drop]
    omega

theorem consume_advances {k : Nat} {s : State} (hk : k ≤ s.buf.length) : Advances s (consume k s) :=
  ⟨⟨rfl, rfl, rfl, rfl⟩, Nat.le_add_right _ _, .inr (consume_readsOn hk)⟩

/-! ### Taking a sample -/

variable (r : RawSample) (s : State)

/-- What a sample that was taken leaves in the assembler's registers, or the fault (R160, R224). -/
theorem takeSample_cases :
    FaultTaken (takeSample r s) ∨
    ((takeSample r s).phase = s.phase ∧ (takeSample r s).fault = s.fault ∧ (takeSample r s).buf = s.buf.drop recordLen ∧
      (takeSample r s).curFrame = frameAtAppend r s ++ [r] ∧
      (takeSample r s).seenStart = (s.seenStart || r.startFlag)) := by
  rcases assemble_cases r (emitSmp r (consume recordLen s)) with ⟨-, he⟩ | ⟨-, he⟩
  · left
    rw [takeSample, he]
    exact raiseBufferGrowthFailure_faultTaken _
  · right
    rw [takeSample, he]
    refine ⟨by simp, by simp, by simp, ?_, by simp⟩
    rw [noteStart_curFrame, appendSample_curFrame, afterClosing_curFrame_eq_frameAtAppend]
    rfl

/-- The sample that did not fault found room (R55). -/
theorem takeSample_open_of_room (hopen : (takeSample r s).phase ≠ .closed) :
    frameFull (afterClosing r (emitSmp r (consume recordLen s))) = false := by
  rcases assemble_cases r (emitSmp r (consume recordLen s)) with ⟨-, he⟩ | ⟨room, -⟩
  · rw [takeSample, he] at hopen
    exact absurd rfl hopen
  · exact room

@[simp] theorem takeSample_pc : (takeSample r s).pc = s.pc + recordLen := by
  rcases assemble_cases r (emitSmp r (consume recordLen s)) with ⟨-, he⟩ | ⟨-, he⟩ <;> simp [takeSample, he]

@[simp] theorem takeSample_descFlag : (takeSample r s).descFlag = s.descFlag := by
  rcases assemble_cases r (emitSmp r (consume recordLen s)) with ⟨-, he⟩ | ⟨-, he⟩ <;> simp [takeSample, he]

@[simp] theorem takeSample_smpTap : (takeSample r s).smpTap = s.smpTap ++ [r] := by
  rcases assemble_cases r (emitSmp r (consume recordLen s)) with ⟨-, he⟩ | ⟨-, he⟩ <;> simp [takeSample, he]

theorem takeSample_sameSettings : SameSettings s (takeSample r s) := by
  rcases assemble_cases r (emitSmp r (consume recordLen s)) with ⟨-, he⟩ | ⟨-, he⟩ <;>
    exact ⟨by simp [takeSample, he], by simp [takeSample, he], by simp [takeSample, he], by simp [takeSample, he]⟩

/-- Whether or not the sample finds room, its traces are those of the completion before it. -/
theorem takeSample_traces :
    (takeSample r s).out = (afterClosing r s).out ∧ (takeSample r s).rawfTap = (afterClosing r s).rawfTap ∧
      (takeSample r s).corfTap = (afterClosing r s).corfTap := by
  have same_completion : (afterClosing r (emitSmp r (consume recordLen s))).out = (afterClosing r s).out ∧
      (afterClosing r (emitSmp r (consume recordLen s))).rawfTap = (afterClosing r s).rawfTap ∧
      (afterClosing r (emitSmp r (consume recordLen s))).corfTap = (afterClosing r s).corfTap := by
    have same_test : closesFrame r (emitSmp r (consume recordLen s)) = closesFrame r s := rfl
    cases hc : closesFrame r s with
    | false => rw [afterClosing_of_not_closes hc, afterClosing_of_not_closes (same_test.trans hc)]; exact ⟨rfl, rfl, rfl⟩
    | true =>
      rw [afterClosing_of_closes hc, afterClosing_of_closes (same_test.trans hc), completeFrame_eq, completeFrame_eq]
      exact ⟨rfl, rfl, rfl⟩
  rcases assemble_cases r (emitSmp r (consume recordLen s)) with ⟨-, he⟩ | ⟨-, he⟩ <;>
    simpa [takeSample, he] using same_completion

variable {r s}

theorem takeSample_advances (hk : recordLen ≤ s.buf.length) : Advances s (takeSample r s) where
  settings := takeSample_sameSettings r s
  pc_le := by simp
  outcome := by
    rcases takeSample_cases r s with taken | ⟨-, hfault, hbuf, -, -⟩
    · exact .inl taken
    · refine .inr ⟨hfault, by simp [hbuf], ?_⟩
      rw [takeSample_pc, hbuf, List.length_drop]
      omega

/-! ### One window -/

variable {w : Window}

theorem recordLen_le_of_windowAt {bs : List Byte} (h : windowAt bs = some w) : recordLen ≤ bs.length := by
  obtain ⟨rest, rfl⟩ := windowAt_eq_some.mp h
  simp [Window.bytes, recordLen]

theorem windowStep_of_valid (hv : valid w = true) (s : State) : windowStep w s = takeSample (decodeWindow w) s :=
  if_pos hv

/-- The item of the window at the cursor is the step of the sample loop (R140). -/
theorem exec_classify (hp : s.phase = .streaming) (hw : windowAt s.buf = some w) :
    exec (classify w) s = .next (windowStep w s) := by
  have hk := recordLen_le_of_windowAt hw
  cases hv : valid w with
  | false => rw [classify_of_invalid hv, exec_skip1_of_streaming w hp hk, windowStep_of_invalid hv]
  | true => rw [exec_classify_of_valid hv hp hk, windowStep_of_valid hv]

theorem windowStep_advances (hw : windowAt s.buf = some w) : Advances s (windowStep w s) := by
  have hk := recordLen_le_of_windowAt hw
  cases hv : valid w with
  | true => rw [windowStep_of_valid hv]; exact takeSample_advances hk
  | false =>
    rw [windowStep_of_invalid hv]
    exact consume_advances (le_trans (by decide) hk)

theorem windowStep_phase_cases (w : Window) (s : State) :
    FaultTaken (windowStep w s) ∨ (windowStep w s).phase = s.phase := by
  cases hv : valid w with
  | true =>
    rw [windowStep_of_valid hv]
    exact (takeSample_cases (decodeWindow w) s).imp id And.left
  | false => rw [windowStep_of_invalid hv]; exact .inr rfl

/-! ### The sample loop -/

theorem sampleLoop_of_no_window (h : windowAt s.buf = none) : sampleLoop s = s := by
  rw [sampleLoop_eq, h]

theorem sampleLoop_of_faultTaken (h : FaultTaken s) : sampleLoop s = s :=
  sampleLoop_of_no_window (by rw [h.buf]; rfl)

/-- In a block that is not closed the loop goes on from the state after a window, also when that took the fault. -/
theorem sampleLoop_of_window (hopen : s.phase ≠ .closed) (hw : windowAt s.buf = some w) :
    sampleLoop s = sampleLoop (windowStep w s) := by
  rw [sampleLoop_eq, hw]
  by_cases hc : (windowStep w s).phase = .closed
  · have taken : FaultTaken (windowStep w s) :=
      (windowStep_phase_cases w s).resolve_right fun same => hopen (same ▸ hc)
    simp only [hc, if_true, sampleLoop_of_faultTaken taken]
  · simp only [hc, if_false]

/-- Induction along the sample loop of a block that is not closed, window after window to where none stands. -/
theorem sampleLoop_induction_of_open {P : State → State → Prop} (stop : ∀ s, windowAt s.buf = none → P s s)
    (go : ∀ s w, s.phase ≠ .closed → windowAt s.buf = some w →
      P (windowStep w s) (sampleLoop (windowStep w s)) → P s (sampleLoop (windowStep w s)))
    (s : State) (hopen : s.phase ≠ .closed) : P s (sampleLoop s) := by
  refine sampleLoop_induction (P := fun s t => s.phase ≠ .closed → P s t) ?stop ?fault ?go s hopen
  case stop => exact fun s h _ => stop s h
  case fault =>
    intro s w hw hc hopen
    have taken : FaultTaken (windowStep w s) :=
      (windowStep_phase_cases w s).resolve_right fun same => hopen (same ▸ hc)
    have loop := sampleLoop_of_faultTaken taken
    exact loop ▸ go s w hopen hw (loop.symm ▸ stop _ (by rw [taken.buf]; rfl))
  case go =>
    intro s w hw hopen' ih hopen
    exact sampleLoop_of_window hopen hw ▸ go s w hopen hw (ih hopen')

/-- The loop runs until no window stands (R114). -/
theorem sampleLoop_drains (hopen : s.phase ≠ .closed) : (sampleLoop s).buf.length < recordLen :=
  sampleLoop_induction_of_open (P := fun _ t => t.buf.length < recordLen) (fun _ h => windowAt_eq_none.mp h)
    (fun _ _ _ _ ih => ih) s hopen

theorem sampleLoop_phase_cases (hopen : s.phase ≠ .closed) :
    FaultTaken (sampleLoop s) ∨ (sampleLoop s).phase = s.phase := by
  refine sampleLoop_induction_of_open (P := fun s t => FaultTaken t ∨ t.phase = s.phase) (fun _ _ => .inr rfl) ?_ s hopen
  intro s w _ _ ih
  rcases windowStep_phase_cases w s with taken | same
  · rw [sampleLoop_of_faultTaken taken]
    exact .inl taken
  · exact same ▸ ih

theorem sampleLoop_advances (hopen : s.phase ≠ .closed) : Advances s (sampleLoop s) := by
  refine sampleLoop_induction_of_open (P := Advances) (fun s _ => .refl s) ?_ s hopen
  intro s w hopen hw ih
  have stepped := windowStep_advances hw
  rcases windowStep_phase_cases w s with taken | same
  · rwa [sampleLoop_of_faultTaken taken]
  · exact stepped.trans (same ▸ hopen) ih

end Sys2Proof.Machine
end

