-- ==== Sys2Proof/Proofs/ParsePass.lean ====
section
/-!
PROOFS. The parse pass and the `APPEND` that runs it (40_byte_accumulator_pass.md R110 to R116, 41_descriptor_skipper.md
R131 to R135). The pass holds, or checks the head and loops, or loops; each obligation names the case it is about.
-/

namespace Sys2Proof.Machine

/-! ### The descriptor check -/

variable {s : State} {c : List Byte}

theorem signatureAt_append {bs : List Byte} (h : 2 ≤ bs.length) (more : List Byte) :
    signatureAt (bs ++ more) = signatureAt bs := by
  match bs, h with
  | _ :: _ :: _, _ => rfl

theorem checkDescriptor_of_signature {rest : List Byte} {t2 t3 t4 t5 t6 : Byte}
    (hb : s.buf = [0xA5, 0x5A, t2, t3, t4, t5, t6] ++ rest) :
    checkDescriptor s =
      { s with phase := .streaming, buf := rest, pc := s.pc + 7, descFlag := s.descFlag || s.params.descRecheck } := by
  have found : signatureAt s.buf = true := by rw [hb]; rfl
  have dropped : consume descLen s = { s with buf := rest, pc := s.pc + 7 } := consume_length_eq hb
  rw [checkDescriptor, found, if_pos rfl, skipDescriptor, dropped]
  rfl

theorem checkDescriptor_of_no_signature (h : signatureAt s.buf = false) : checkDescriptor s = enterStreaming s := by
  rw [checkDescriptor, h]
  rfl

@[simp] theorem checkDescriptor_phase (s : State) : (checkDescriptor s).phase = .streaming := rfl

theorem checkDescriptor_open (s : State) : (checkDescriptor s).phase ≠ .closed := by simp

@[simp] theorem checkDescriptor_params (s : State) : (checkDescriptor s).params = s.params := by
  unfold checkDescriptor; split <;> rfl

theorem checkDescriptor_advances (hk : descLen ≤ s.buf.length) : Advances s (checkDescriptor s) := by
  unfold checkDescriptor
  split
  · have dropped := consume_readsOn hk
    exact ⟨⟨rfl, rfl, rfl, rfl⟩, Nat.le_add_right _ _, .inr ⟨dropped.fault, dropped.buf, dropped.ends⟩⟩
  · exact ⟨⟨rfl, rfl, rfl, rfl⟩, le_rfl, .inr ⟨rfl, by simp, rfl⟩⟩

/-! ### The three courses of a pass -/

theorem parsePass_of_held (hd : descPending s = true) (hk : s.buf.length < descLen) : parsePass s = s := by
  rw [parsePass, if_pos hd, if_pos hk]

theorem parsePass_of_check (hd : descPending s = true) (hk : descLen ≤ s.buf.length) :
    parsePass s = sampleLoop (checkDescriptor s) := by
  rw [parsePass, if_pos hd, if_neg (Nat.not_lt.mpr hk)]

theorem parsePass_of_checked (hd : descPending s = false) : parsePass s = sampleLoop s :=
  if_neg (ne_true_of_eq_false hd)

theorem parsePass_cases (s : State) :
    (descPending s = true ∧ s.buf.length < descLen ∧ parsePass s = s) ∨
    (descPending s = true ∧ descLen ≤ s.buf.length ∧ parsePass s = sampleLoop (checkDescriptor s)) ∨
    (descPending s = false ∧ parsePass s = sampleLoop s) := by
  cases hd : descPending s with
  | false => exact .inr (.inr ⟨rfl, parsePass_of_checked hd⟩)
  | true =>
    rcases Nat.lt_or_ge s.buf.length descLen with hk | hk
    · exact .inl ⟨rfl, hk, parsePass_of_held hd hk⟩
    · exact .inr (.inl ⟨rfl, hk, parsePass_of_check hd hk⟩)

theorem parsePass_advances (hopen : s.phase ≠ .closed) : Advances s (parsePass s) := by
  rcases parsePass_cases s with ⟨-, -, he⟩ | ⟨-, hk, he⟩ | ⟨-, he⟩ <;> rw [he]
  · exact .refl s
  · exact (checkDescriptor_advances hk).trans (checkDescriptor_open s) (sampleLoop_advances (checkDescriptor_open s))
  · exact sampleLoop_advances hopen

/-! ### `APPEND` outside `Closed` -/

/-- The state in which the pass of an `APPEND` begins: the session started and the chunk behind the bytes that wait
(R110). -/
def received (c : List Byte) (s : State) : State := appendBytes c (startSession s)

theorem received_eq (c : List Byte) (s : State) :
    received c s =
      { s with phase := if s.phase = .idle then .synchronizing else s.phase, buf := s.buf ++ c } := rfl

@[simp] theorem received_phase (c : List Byte) (s : State) :
    (received c s).phase = if s.phase = .idle then .synchronizing else s.phase := rfl
@[simp] theorem received_buf (c : List Byte) (s : State) : (received c s).buf = s.buf ++ c := rfl
@[simp] theorem received_params (c : List Byte) (s : State) : (received c s).params = s.params := rfl
@[simp] theorem received_descFlag (c : List Byte) (s : State) : (received c s).descFlag = s.descFlag := rfl

theorem received_not_idle (c : List Byte) (s : State) : (received c s).phase ≠ .idle := by
  rw [received_phase]
  split <;> simp [*]

theorem received_open (hopen : s.phase ≠ .closed) : (received c s).phase ≠ .closed := by
  rw [received_phase]
  split <;> simp [*]

theorem received_of_not_idle (h : s.phase ≠ .idle) : received c s = appendBytes c s := by
  rw [received_eq, if_neg h]
  rfl

theorem deliver_of_overflow (h : bufOverflows c.length s = true) : deliver c s = raiseBufferGrowthFailure s := if_pos h

theorem deliver_of_fits (h : bufOverflows c.length s = false) : deliver c s = parsePass (received c s) :=
  if_neg (ne_true_of_eq_false h)

theorem exec_append_of_open (hopen : s.phase ≠ .closed) : exec (.append c) s = .next (deliver c s) :=
  congrArg Host.Outcome.next (unlessClosed_of_open (deliver c) hopen)

theorem exec_append_of_fits (hopen : s.phase ≠ .closed) (h : bufOverflows c.length s = false) :
    exec (.append c) s = .next (parsePass (received c s)) := by
  rw [exec_append_of_open hopen, deliver_of_fits h]

theorem exec_append_of_held (hopen : s.phase ≠ .closed) (hfits : bufOverflows c.length s = false)
    (hd : descPending (received c s) = true) (hk : s.buf.length + c.length < 7) :
    exec (.append c) s = .next (received c s) := by
  have short : (received c s).buf.length < descLen := by simpa [descLen] using hk
  rw [exec_append_of_fits hopen hfits, parsePass_of_held hd short]

theorem exec_append_of_check (hopen : s.phase ≠ .closed) (hfits : bufOverflows c.length s = false)
    (hd : descPending (received c s) = true) (hk : 7 ≤ (s.buf ++ c).length) :
    exec (.append c) s = .next (sampleLoop (checkDescriptor (received c s))) := by
  rw [exec_append_of_fits hopen hfits, parsePass_of_check hd hk]

/-- Once the check is over, an empty `APPEND` is the sample loop over what waits. -/
theorem exec_append_nil_of_checked {t : State} (hp : t.phase = .streaming) (hd : descPending t = false)
    (hparams : t.params = s.params) (hlen : t.buf.length ≤ (s.buf ++ c).length)
    (hfits : bufOverflows c.length s = false) : exec (.append []) t = .next (sampleLoop t) := by
  have still_fits : bufOverflows 0 t = false := bufOverflows_of_length_le hparams (by simpa using hlen) hfits
  rw [exec_append_of_streaming (c := []) hp hd still_fits, appendBytes_nil]

/-- An `APPEND` whose check leaves the block in `t`, with no further check to be made, goes on as an empty one there. -/
theorem exec_append_of_check_leaving {t : State} (hopen : s.phase ≠ .closed) (hfits : bufOverflows c.length s = false)
    (hd : descPending (received c s) = true) (hk : 7 ≤ (s.buf ++ c).length)
    (ht : checkDescriptor (received c s) = t) (hdone : descPending t = false) :
    exec (.append c) s = exec (.append []) t := by
  subst ht
  obtain ⟨settings, hpc, outcome⟩ := checkDescriptor_advances (s := received c s) hk
  obtain ⟨-, -, hends⟩ := outcome.resolve_left (not_faultTaken_of_open (checkDescriptor_open _))
  have shorter : (checkDescriptor (received c s)).buf.length ≤ (s.buf ++ c).length := by
    rw [received_buf] at hends
    omega
  rw [exec_append_of_check hopen hfits hd hk,
    exec_append_nil_of_checked (s := s) (checkDescriptor_phase _) hdone settings.params shorter hfits]

/-! ### Where the check is to be made -/

theorem descPending_of_checkedOnce (hr : s.params.descRecheck = false) :
    descPending s = (s.phase == .synchronizing) := by
  simp [descPending, hr]

theorem descPending_of_recheck (hr : s.params.descRecheck = true) : descPending s = !s.descFlag := by
  simp [descPending, hr]

theorem descPending_of_flag (hr : s.params.descRecheck = true) (hf : s.descFlag = true) : descPending s = false := by
  rw [descPending_of_recheck hr, hf]
  rfl

theorem descPending_of_synchronizing (hp : s.phase = .synchronizing) (hflag : s.descFlag = false) :
    descPending s = true := by
  cases hr : s.params.descRecheck with
  | false => simp [descPending_of_checkedOnce hr, hp]
  | true => simp [descPending_of_recheck hr, hflag]

theorem received_phase_of_head (hp : s.phase = .idle ∨ s.phase = .synchronizing) :
    (received c s).phase = .synchronizing := by
  rcases hp with hp | hp <;> simp [hp]

theorem open_of_head (hp : s.phase = .idle ∨ s.phase = .synchronizing) : s.phase ≠ .closed := by
  rcases hp with hp | hp <;> simp [hp]

theorem descPending_received_of_head (hr : s.params.descRecheck = false)
    (hp : s.phase = .idle ∨ s.phase = .synchronizing) : descPending (received c s) = true := by
  rw [descPending_of_checkedOnce (s := received c s) hr, received_phase_of_head hp]
  rfl

theorem descPending_received_of_recheck (hr : s.params.descRecheck = true) (hf : s.descFlag = false) :
    descPending (received c s) = true := by
  simp [descPending_of_recheck (s := received c s) hr, hf]

/-! ### What an `APPEND` leaves -/

/-- An `APPEND` outside `Closed` takes the fault or advances from the state its chunk was received in. -/
theorem deliver_cases (hopen : s.phase ≠ .closed) :
    deliver c s = raiseBufferGrowthFailure s ∨
    (bufOverflows c.length s = false ∧ deliver c s = parsePass (received c s) ∧
      Advances (received c s) (deliver c s)) := by
  cases hfits : bufOverflows c.length s with
  | true => exact .inl (deliver_of_overflow hfits)
  | false =>
    have passed := deliver_of_fits hfits
    exact .inr ⟨rfl, passed, passed ▸ parsePass_advances (received_open hopen)⟩

/-- The phase and the bytes left by a pass, unless it faulted (R114, R131). -/
theorem parsePass_leaves (hopen : s.phase ≠ .closed) :
    FaultTaken (parsePass s) ∨
    ((parsePass s).phase = (if descPending s = true ∧ descLen ≤ s.buf.length then .streaming else s.phase) ∧
      (parsePass s).buf.length ≤ if descPending (parsePass s) then 6 else 4) := by
  have short_tail {t : State} (h : t.buf.length < recordLen) : t.buf.length ≤ if descPending t then 6 else 4 := by
    have : recordLen = 5 := rfl
    split <;> omega
  rcases parsePass_cases s with ⟨hd, hk, he⟩ | ⟨hd, hk, he⟩ | ⟨hd, he⟩ <;> rw [he]
  · have at_most_six : s.buf.length ≤ 6 := Nat.le_of_lt_succ hk
    simp [hd, Nat.not_le.mpr hk, at_most_six]
  · have drained := short_tail (sampleLoop_drains (checkDescriptor_open s))
    refine (sampleLoop_phase_cases (checkDescriptor_open s)).imp id fun same => ⟨?_, drained⟩
    rw [same]
    simp [hd, hk]
  · have drained := short_tail (sampleLoop_drains hopen)
    refine (sampleLoop_phase_cases hopen).imp id fun same => ⟨?_, drained⟩
    rw [same]
    simp [hd]

theorem parsePass_not_idle (hopen : s.phase ≠ .closed) (hidle : s.phase ≠ .idle) : (parsePass s).phase ≠ .idle := by
  rcases parsePass_leaves hopen with taken | ⟨hphase, -⟩
  · simp [taken.phase]
  · rw [hphase]
    split <;> simp [hidle]

/-! ### Between two steps -/

/-- Where the invariant holds, the check of a session in `Synchronizing` is still to be made. -/
theorem Inv.descPending_of_synchronizing (hinv : Inv s) (hp : s.phase = .synchronizing) : descPending s = true := by
  obtain ⟨-, -, hflag, -, -⟩ := hinv.synchronizing hp
  exact Machine.descPending_of_synchronizing hp hflag

/-- Where the invariant holds, fewer bytes wait than the next decision needs (R35). -/
theorem Inv.short_tail (hinv : Inv s) (hp : s.phase = .synchronizing ∨ s.phase = .streaming) :
    s.buf.length ≤ if descPending s then 6 else 4 := by
  rcases hp with hp | hp
  · rw [hinv.descPending_of_synchronizing hp]
    exact (hinv.synchronizing hp).1
  · exact hinv.streaming hp

theorem parsePass_of_short_tail (h : s.buf.length ≤ if descPending s then 6 else 4) : parsePass s = s := by
  cases hd : descPending s with
  | false =>
    have no_window : s.buf.length < recordLen := Nat.lt_succ_of_le (by simpa [hd] using h)
    rw [parsePass_of_checked hd, sampleLoop_of_no_window (windowAt_eq_none.mpr no_window)]
  | true => exact parsePass_of_held hd (Nat.lt_succ_of_le (by simpa [hd] using h))

theorem Inv.fits_nil (hinv : Inv s) : bufOverflows 0 s = false := by
  obtain ⟨hbuf, -⟩ := hinv.capacity
  unfold bufOverflows
  cases hcap : s.params.bufCap with
  | none => rfl
  | some cap => simpa [hcap] using hbuf

end Sys2Proof.Machine

open Sys2Proof Sys2Proof.Machine in
/-- Settles O23: in both readings the check is to be made, so the pass holds the bytes received. -/
theorem appendHoldsBelowSevenBytes : Obligations.AppendHoldsBelowSevenBytes := by
  unfold Obligations.AppendHoldsBelowSevenBytes
  refine ⟨?once, ?recheck⟩
  case once =>
    intro c s hr hp hfits hk
    rw [exec_append_of_held (open_of_head hp) hfits (descPending_received_of_head hr hp) hk, received_eq,
      ← received_phase (c := c), received_phase_of_head hp]
  case recheck =>
    intro c s hr hf hopen hfits hk
    rw [exec_append_of_held hopen hfits (descPending_received_of_recheck hr hf) hk, received_eq]

open Sys2Proof Sys2Proof.Machine in
/-- Settles O24: the check leaves the block in `Streaming`, after the descriptor or where it was, and both sides are the
sample loop from there. -/
theorem descriptorIsCheckedOnceAtTheHead : Obligations.DescriptorIsCheckedOnceAtTheHead := by
  unfold Obligations.DescriptorIsCheckedOnceAtTheHead
  refine ⟨?signature, ?none⟩
  case signature =>
    intro c rest t2 t3 t4 t5 t6 s hr hp hfits hb
    have checked : checkDescriptor (received c s) = { s with phase := .streaming, buf := rest, pc := s.pc + 7 } := by
      rw [checkDescriptor_of_signature (s := received c s) hb, received_params, hr, Bool.or_false]
      rfl
    exact exec_append_of_check_leaving (open_of_head hp) hfits (descPending_received_of_head hr hp) (by simp [hb])
      checked (descPending_of_streaming hr rfl)
  case none =>
    intro c s hr hp hfits hk hsig
    have checked : checkDescriptor (received c s) = { s with phase := .streaming, buf := s.buf ++ c } :=
      checkDescriptor_of_no_signature (s := received c s) hsig
    exact exec_append_of_check_leaving (open_of_head hp) hfits (descPending_received_of_head hr hp) hk checked
      (descPending_of_streaming hr rfl)

open Sys2Proof Sys2Proof.Machine in
/-- Settles O60: as for the check made once, with the flag, which the sample loop passes through untouched. -/
theorem descriptorIsCheckedInEveryPassUnderRecheck : Obligations.DescriptorIsCheckedInEveryPassUnderRecheck := by
  unfold Obligations.DescriptorIsCheckedInEveryPassUnderRecheck
  refine ⟨?signature, ?none⟩
  case signature =>
    intro c rest t2 t3 t4 t5 t6 s hr hf hopen hfits hb
    have checked : checkDescriptor (received c s) =
        { s with phase := .streaming, buf := rest, pc := s.pc + 7, descFlag := true } := by
      rw [checkDescriptor_of_signature (s := received c s) hb, received_params, hr, Bool.or_true]
      rfl
    exact exec_append_of_check_leaving hopen hfits (descPending_received_of_recheck hr hf) (by simp [hb]) checked
      (descPending_of_flag hr rfl)
  case none =>
    intro c s hr hf hopen hfits hk hsig
    let t : State := { s with phase := .streaming, buf := s.buf ++ c }
    have checked : checkDescriptor (received c s) = { t with descFlag := false } := by
      rw [checkDescriptor_of_no_signature (s := received c s) hsig, ← hf]
      rfl
    have other_side : exec (.append []) { t with descFlag := true } = .next { sampleLoop t with descFlag := true } :=
      (exec_append_nil_of_checked (s := s) (t := { t with descFlag := true }) rfl (descPending_of_flag hr rfl) rfl le_rfl
        hfits).trans (congrArg _ (sampleLoop_withDescFlag true t))
    rw [exec_append_of_check hopen hfits (descPending_received_of_recheck hr hf) hk, checked, sampleLoop_withDescFlag,
      other_side]
    rfl

open Sys2Proof Sys2Proof.Machine in
/-- Settles O25: the window's item is the first step of the sample loop, whose rest is what an empty `APPEND` runs; after
a fault both sides answer the closed block. -/
theorem appendRunsOneItemPerWindow : Obligations.AppendRunsOneItemPerWindow := by
  unfold Obligations.AppendRunsOneItemPerWindow
  intro c rest w s hp hd hfits hb
  have hw : windowAt (appendBytes c s).buf = some w := windowAt_eq_some.mpr ⟨rest, hb⟩
  have hopen : (appendBytes c s).phase ≠ .closed := by simp [hp]
  refine ⟨windowStep w (appendBytes c s), exec_classify hp hw, ?_⟩
  rw [exec_append_of_streaming hp hd hfits, sampleLoop_of_window hopen hw]
  rcases windowStep_phase_cases w (appendBytes c s) with taken | same
  · rw [sampleLoop_of_faultTaken taken, exec_append_of_closed [] taken.phase]
  · have still_checked : descPending (windowStep w (appendBytes c s)) = false := by
      rw [← hd]
      simp only [descPending, windowStep_params, windowStep_descFlag, same]
      rfl
    rw [exec_append_nil_of_checked (s := s) (c := c) (same.trans hp) still_checked (windowStep_params _ _)
      (windowStep_buf_lt hw).le hfits]

open Sys2Proof Sys2Proof.Machine in
/-- Settles O26: by `parsePass_leaves`, from a phase that is `Synchronizing` or `Streaming` once the session is started. -/
theorem completedPassLeavesAShortTail : Obligations.CompletedPassLeavesAShortTail := by
  unfold Obligations.CompletedPassLeavesAShortTail
  intro c s t hopen h
  rw [exec_append_of_open hopen] at h
  cases h
  rcases deliver_cases (c := c) hopen with overflowed | ⟨-, passed, -⟩
  · exact .inl (overflowed ▸ rfl)
  rw [passed]
  rcases parsePass_leaves (received_open (c := c) hopen) with taken | ⟨-, htail⟩
  · exact .inl taken.phase
  · have tail_of_six : (parsePass (received c s)).buf.length ≤ 6 := htail.trans (by split <;> decide)
    have not_idle := parsePass_not_idle (received_open (c := c) hopen) (received_not_idle c s)
    cases hp : (parsePass (received c s)).phase with
    | idle => exact absurd hp not_idle
    | synchronizing => exact .inr (.inl ⟨rfl, tail_of_six⟩)
    | streaming => exact .inr (.inr ⟨rfl, htail⟩)
    | closed => exact .inl rfl

open Sys2Proof Sys2Proof.Machine in
/-- Settles O27: the capacity check fails, so the event is the fault. -/
theorem appendBeyondCapacityFaults : Obligations.AppendBeyondCapacityFaults := by
  unfold Obligations.AppendBeyondCapacityFaults
  intro c cap s hopen hcap hover
  have overflows : bufOverflows c.length s = true := by simp [bufOverflows, hcap, hover]
  rw [exec_append_of_open hopen, deliver_of_overflow overflows]
  rfl

open Sys2Proof Sys2Proof.Machine in
/-- Settles O28: in `Closed` nothing changes; elsewhere `deliver_cases` gives the fault or an advance from the received
state, whose buffer is the old bytes and the chunk. -/
theorem appendCompletes : Obligations.AppendCompletes := by
  unfold Obligations.AppendCompletes
  intro c s
  by_cases hphase : s.phase = .closed
  · refine ⟨s, exec_append_of_closed c hphase, ⟨rfl, rfl, rfl, rfl⟩, (KeepsObserved.refl s).1, by simp [hphase], le_rfl,
      .inl rfl, fun hopen => absurd hphase hopen⟩
  have observed := (deliver_keepsObserved c s).1
  refine ⟨deliver c s, exec_append_of_open hphase, ?_⟩
  rcases deliver_cases (c := c) hphase with overflowed | ⟨-, passed, ⟨hmax, hstride, hparams, hpending⟩, hpc, outcome⟩
  · rw [overflowed] at observed ⊢
    exact ⟨⟨rfl, rfl, rfl, rfl⟩, observed, by simp, le_rfl, .inr ⟨rfl, rfl⟩, fun hopen => absurd rfl hopen⟩
  · have not_idle : (deliver c s).phase ≠ .idle := by
      rw [passed]
      rcases parsePass_leaves (received_open (c := c) hphase) with taken | ⟨left, -⟩
      · simp [taken.phase]
      · rw [left]
        split
        · decide
        · exact received_not_idle c s
    refine ⟨⟨hmax, hstride, hparams, hpending⟩, observed, not_idle, hpc, ?_, ?_⟩
    · rcases outcome with taken | on
      · exact .inr ⟨taken.fault, taken.phase⟩
      · exact .inl on.fault
    · intro hopen
      obtain ⟨-, hbuf, hends⟩ := outcome.resolve_left (not_faultTaken_of_open hopen)
      refine ⟨hbuf, hends.trans ?_⟩
      rw [received_buf, List.length_append, ← Nat.add_assoc]
      rfl

open Sys2Proof Sys2Proof.Machine in
/-- Settles O29: the invariant leaves fewer bytes than a window needs, or than the check needs where it is to be made. -/
theorem emptyChunkDoesNothing : Obligations.EmptyChunkDoesNothing := by
  unfold Obligations.EmptyChunkDoesNothing
  intro s hinv
  refine ⟨?idle, ?other⟩
  case idle =>
    intro hp
    obtain ⟨hbuf, -, hflag, -, -⟩ := hinv.idle hp
    have pending : descPending (received [] s) = true :=
      descPending_of_synchronizing (received_phase_of_head (.inl hp)) hflag
    rw [exec_append_of_held (c := []) (open_of_head (.inl hp)) hinv.fits_nil pending (by simp [hbuf]), received_eq, if_pos hp,
      List.append_nil]
  case other =>
    intro hne
    by_cases hclosed : s.phase = .closed
    · exact exec_append_of_closed [] hclosed
    · have running : s.phase = .synchronizing ∨ s.phase = .streaming := by
        cases hp : s.phase <;> simp_all
      rw [exec_append_of_fits (c := []) hclosed hinv.fits_nil, received_of_not_idle hne, appendBytes_nil,
        parsePass_of_short_tail (hinv.short_tail running)]

end

