-- ==== Sys2Proof/Proofs/StreamItems.lean ====
section
/-!
PROOFS. The stream items run by themselves (30_encoding.md R80): where they stop, what a full frame buffer makes of a
sample (60_exceptions.md R224), and what an item leaves unchanged.
-/

namespace Sys2Proof.Machine

variable {s t : State}

/-! ### Where an item stops -/

theorem onItem_of_unavailable {available : Bool} (h : available = false) (k : Nat) (f : State → State) (s : State) :
    onItem available k f s = .fault .itemNotSelected := by
  simp [onItem, h]

theorem onItem_of_incomplete {available : Bool} {k : Nat} (h : available = true) (hk : s.buf.length < k)
    (f : State → State) : onItem available k f s = .fault .itemIncomplete := by
  simp [onItem, h, hk]

theorem windowAvailable_iff : windowAvailable s = true ↔ s.phase = .streaming := by simp [windowAvailable]

/-! ### A full frame buffer -/

theorem frameFull_of_cap_le {cap : Nat} (hcap : s.params.frameCap = some cap) (hle : cap ≤ s.curFrame.length) :
    frameFull s = true := by
  simp [frameFull, hcap, hle]

/-- A sample that closes no frame and finds the buffer full is consumed, shown and lost (R55, R223). -/
theorem takeSample_of_full {r : RawSample} (hc : closesFrame r s = false) (hfull : frameFull s = true) :
    takeSample r s =
      { s with
        buf := [], pc := s.pc + 5, smpTap := s.smpTap ++ [r]
        curFrame := [], seenStart := false, fault := .bufferGrowthFailure, phase := .closed } := by
  have still_full : frameFull (emitSmp r (consume recordLen s)) = true := hfull
  rw [takeSample, assemble, afterClosing_of_not_closes (s := emitSmp r (consume recordLen s)) hc, takeIn, still_full]
  rfl

/-! ### What an item does -/

/-- An item that answers a next state is a descriptor skipped, a byte skipped or a sample taken. -/
theorem exec_item_cases {i : Instr} (hi : i.format = .descriptor ∨ i.format = .sample) (h : exec i s = .next t) :
    (i.format = .descriptor ∧ descLen ≤ s.buf.length ∧ t = skipDescriptor s) ∨
    (i.format = .sample ∧ recordLen ≤ s.buf.length ∧ t = skipByte s) ∨
    (∃ r, i.format = .sample ∧ (∀ w, i ≠ .skip1 w) ∧ recordLen ≤ s.buf.length ∧ t = takeSample r s) := by
  cases i with
  | desc t2 t3 t4 t5 t6 =>
    obtain ⟨-, hk, ht⟩ := onItem_next h
    exact .inl ⟨rfl, hk, ht⟩
  | skip1 w =>
    obtain ⟨-, hk, ht⟩ := onItem_next h
    exact .inr (.inl ⟨rfl, hk, ht⟩)
  | smpS q a d =>
    obtain ⟨-, hk, ht⟩ := onItem_next h
    exact .inr (.inr ⟨⟨a, d, q, true⟩, rfl, by simp, hk, ht⟩)
  | smpN q a d =>
    obtain ⟨-, hk, ht⟩ := onItem_next h
    exact .inr (.inr ⟨⟨a, d, q, false⟩, rfl, by simp, hk, ht⟩)
  | append | reset | close | config | cmdScan | cmdStop => simp [Instr.format] at hi

theorem skipDescriptor_advances (hk : descLen ≤ s.buf.length) : Advances s (skipDescriptor s) := by
  have dropped := consume_readsOn hk
  exact ⟨⟨rfl, rfl, rfl, rfl⟩, Nat.le_add_right _ _, .inr ⟨dropped.fault, dropped.buf, dropped.ends⟩⟩

theorem skipByte_advances (hk : recordLen ≤ s.buf.length) : Advances s (skipByte s) :=
  consume_advances (le_trans (by decide) hk)

theorem takeSample_phase_cases (r : RawSample) (s : State) :
    (takeSample r s).phase = s.phase ∨ (takeSample r s).phase = .closed :=
  (takeSample_cases r s).symm.imp And.left FaultTaken.phase

/-- The cursor only advances, so that unless the fault was taken all that is left of the stream reads as before. -/
theorem Advances.memRead_eq (h : Advances s t) (hopen : t.phase ≠ .closed) (addr n : Nat) (ha : t.pc ≤ addr) :
    memRead addr n t = memRead addr n s :=
  (h.outcome.resolve_left (not_faultTaken_of_open hopen)).memRead_eq h.pc_le ha n

end Sys2Proof.Machine

open Sys2Proof Sys2Proof.Machine in
/-- Settles O15: `DESC` is available, since the flag is clear, and sets it. -/
theorem descSetsItsFlagUnderRecheck : Obligations.DescSetsItsFlagUnderRecheck := by
  unfold Obligations.DescSetsItsFlagUnderRecheck
  intro t2 t3 t4 t5 t6 rest s hr hf hp hb
  have available : descAvailable s = true := by
    simp [descAvailable, descPending_of_recheck hr, hf, hp]
  have ran : exec (.desc t2 t3 t4 t5 t6) s = .next (skipDescriptor s) :=
    onItem_of_ready available (by simp [hb, descLen])
  have dropped : consume descLen s = { s with buf := rest, pc := s.pc + 7 } := consume_length_eq hb
  rw [ran, skipDescriptor, dropped, noteDescriptor, hr, Bool.or_true]

open Sys2Proof Sys2Proof.Machine in
/-- Settles O17: a sample without the start flag closes no frame. -/
theorem smpNTakesASample : Obligations.SmpNTakesASample := by
  unfold Obligations.SmpNTakesASample
  intro q a d s hp hk hroom
  have not_closing : closesFrame ⟨a, d, q, false⟩ s = false := rfl
  rw [exec_smpN_of_streaming q a d hp hk, takeSample_of_not_closes not_closing hroom, Bool.or_false]

open Sys2Proof Sys2Proof.Machine in
/-- Settles O18: neither sample closes a frame, so the append meets the full buffer. -/
theorem fullFrameBufferFaults : Obligations.FullFrameBufferFaults := by
  unfold Obligations.FullFrameBufferFaults
  refine ⟨?smpN, ?smpS⟩
  case smpN =>
    intro q a d cap s hp hk hcap hle
    have not_closing : closesFrame ⟨a, d, q, false⟩ s = false := rfl
    rw [exec_smpN_of_streaming q a d hp hk, takeSample_of_full not_closing (frameFull_of_cap_le hcap hle)]
  case smpS =>
    intro q a d cap s hp hk hcap hle hunseen
    have not_closing : closesFrame ⟨a, d, q, true⟩ s = false := by simp [closesFrame, hunseen]
    rw [exec_smpS_of_streaming q a d hp hk, takeSample_of_full not_closing (frameFull_of_cap_le hcap hle)]

open Sys2Proof Sys2Proof.Machine in
/-- Settles O21: each item is `onItem` under its own condition and length. -/
theorem itemsStopWhereTheyDoNotStand : Obligations.ItemsStopWhereTheyDoNotStand := by
  unfold Obligations.ItemsStopWhereTheyDoNotStand
  intro q a d w t2 t3 t4 t5 t6 s
  refine ⟨?phase, ?bytes, fun h => onItem_of_unavailable h _ _ s, fun h hk => onItem_of_incomplete h hk _⟩
  case phase =>
    intro hp
    have unavailable : windowAvailable s = false := Bool.eq_false_iff.mpr (mt windowAvailable_iff.mp hp)
    exact ⟨onItem_of_unavailable unavailable _ _ s, onItem_of_unavailable unavailable _ _ s,
      onItem_of_unavailable unavailable _ _ s⟩
  case bytes =>
    intro hp hk
    have available := windowAvailable_iff.mpr hp
    exact ⟨onItem_of_incomplete available hk _, onItem_of_incomplete available hk _, onItem_of_incomplete available hk _⟩

open Sys2Proof Sys2Proof.Machine in
/-- Settles O22: each of the three things an item can do advances along the stream; the two that take no sample write
nothing but the cursor, the bytes and the descriptor flag. -/
theorem streamItemsFrame : Obligations.StreamItemsFrame := by
  unfold Obligations.StreamItemsFrame
  intro i s t hi h
  have observed := (exec_keepsObserved h).1
  rcases exec_item_cases hi h with ⟨hformat, hk, rfl⟩ | ⟨-, hk, rfl⟩ | ⟨r, hformat, hne, hk, rfl⟩
  · have advanced := skipDescriptor_advances hk
    exact ⟨advanced.settings, observed, advanced.pc_le, .inl rfl, by simp [hformat],
      fun _ => ⟨rfl, rfl, rfl, rfl, rfl, rfl, rfl, rfl⟩, advanced.memRead_eq⟩
  · have advanced := skipByte_advances hk
    exact ⟨advanced.settings, observed, advanced.pc_le, .inl rfl, fun _ => rfl,
      fun _ => ⟨rfl, rfl, rfl, rfl, rfl, rfl, rfl, rfl⟩, advanced.memRead_eq⟩
  · have advanced := takeSample_advances (r := r) hk
    have takes_a_sample : ¬ (i.format = .descriptor ∨ ∃ w, i = .skip1 w) := by simp [hformat, hne]
    exact ⟨advanced.settings, observed, advanced.pc_le, takeSample_phase_cases r s, fun _ => takeSample_descFlag r s,
      fun hother => absurd hother takes_a_sample, advanced.memRead_eq⟩

end

