-- ==== Sys2Proof/Proofs/HostEvents.lean ====
section
/-!
PROOFS. The host's events (46_session_control.md R206 to R212) and their order when several are presented at once
(60_exceptions.md R228).
-/

namespace Sys2Proof.Machine

variable {s : State}

/-! ### `CLOSE` and `CONFIG` -/

theorem exec_close_of_open (hopen : s.phase ≠ .closed) : exec .close s = .next (closeBlock s) :=
  congrArg Host.Outcome.next (unlessClosed_of_open closeBlock hopen)

theorem exec_config_of_open (m st : Half) (hopen : s.phase ≠ .closed) :
    exec (.config m st) s = .next (configure m st s) :=
  congrArg Host.Outcome.next (unlessClosed_of_open (configure m st) hopen)

/-- What `CLOSE` writes is what a closed block holds already (R35). -/
theorem closeBlock_of_closed (empty : ClosedIsEmpty s) (hclosed : s.phase = .closed) : closeBlock s = s := by
  obtain ⟨hbuf, hseen, hframe⟩ := empty hclosed
  cases s
  subst hclosed hbuf hseen hframe
  rfl

theorem configure_zero (m : Half) (s : State) : configure m 0 s = s := if_pos rfl

theorem configure_of_ne_zero (m : Half) {st : Half} (h : st ≠ 0) (s : State) :
    configure m st s = { s with maxRange := m, stride := st } := if_neg h

@[simp] theorem configure_phase (m st : Half) (s : State) : (configure m st s).phase = s.phase := by
  unfold configure
  split <;> rfl

/-! ### The phase after an `APPEND` -/

/-- R206's row of `APPEND`, for the check made once. -/
theorem deliver_phase_of_checkedOnce {c : List Byte} (hr : s.params.descRecheck = false) (hopen : s.phase ≠ .closed)
    (hfault : (deliver c s).fault ≠ .bufferGrowthFailure) :
    (deliver c s).phase =
      if s.phase = .streaming then .streaming
      else if s.buf.length + c.length < 7 then .synchronizing else .streaming := by
  rcases deliver_cases (c := c) hopen with overflowed | ⟨-, passed, -⟩
  · exact absurd (overflowed ▸ rfl) hfault
  have no_fault : ¬ FaultTaken (parsePass (received c s)) := fun taken => hfault (passed ▸ taken.fault)
  obtain ⟨left, -⟩ := (parsePass_leaves (received_open (c := c) hopen)).resolve_left no_fault
  rw [passed, left, descPending_of_checkedOnce (s := received c s) hr, received_phase, received_buf, List.length_append]
  cases hp : s.phase with
  | closed => exact absurd hp hopen
  | streaming => simp
  | idle => simp [descLen, ← ite_not (7 ≤ _)]
  | synchronizing => simp [descLen, ← ite_not (7 ≤ _)]

/-! ### Events presented at once -/

/-- An ascending list is its elements below a bound and then the others. -/
theorem filter_lt_append_filter_le {α : Type} (key : α → Nat) (k : Nat) {l : List α}
    (h : l.Pairwise fun a b => key a ≤ key b) :
    (l.filter fun a => key a < k) ++ (l.filter fun a => k ≤ key a) = l := by
  induction l with
  | nil => rfl
  | cons a l ih =>
    obtain ⟨hle, hl⟩ := List.pairwise_cons.mp h
    rcases Nat.lt_or_ge (key a) k with hk | hk
    · simp [hk, Nat.not_le.mpr hk, ih hl]
    · have none_below : (l.filter fun b => key b < k) = [] :=
        List.filter_eq_nil_iff.mpr fun b hb => by simpa using hk.trans (hle b hb)
      have all_above : (l.filter fun b => k ≤ key b) = l :=
        List.filter_eq_self.mpr fun b hb => by simpa using hk.trans (hle b hb)
      simp [hk, Nat.not_lt.mpr hk, none_below, all_above]

/-- The actions of one rank. -/
def ofRank (k : Nat) (l : List HostAction) : List HostAction := l.filter fun a => a.rank == k

/-- The actions from a rank on are those of that rank and then those after it. -/
theorem ofRank_append_filter_rank {l : List HostAction} (h : l.Pairwise fun a b => a.rank ≤ b.rank) (k : Nat) :
    ofRank k l ++ (l.filter fun a => k + 1 ≤ a.rank) = l.filter fun a => k ≤ a.rank := by
  have split := filter_lt_append_filter_le HostAction.rank (k + 1) (h.filter fun a => k ≤ a.rank)
  rw [List.filter_filter, List.filter_filter] at split
  rw [← split, ofRank]
  congr 1 <;> exact List.filter_congr fun a _ => by rw [Bool.eq_iff_iff]; simp; omega

theorem rank_le_four (a : HostAction) : a.rank ≤ 4 := by cases a <;> simp [HostAction.rank]

theorem ofRank_append_all {l : List HostAction} (h : l.Pairwise fun a b => a.rank ≤ b.rank) :
    ofRank 0 l ++ ofRank 1 l ++ ofRank 2 l ++ ofRank 3 l ++ ofRank 4 l = l := by
  have none_after : (l.filter fun a => 4 + 1 ≤ a.rank) = [] :=
    List.filter_eq_nil_iff.mpr fun a _ => by simpa using Nat.lt_succ_of_le (rank_le_four a)
  have last : ofRank 4 l = l.filter fun a => 4 ≤ a.rank := by
    rw [← ofRank_append_filter_rank h, none_after, List.append_nil]
  rw [last, List.append_assoc, ofRank_append_filter_rank h, List.append_assoc, ofRank_append_filter_rank h,
    List.append_assoc, ofRank_append_filter_rank h, ofRank_append_filter_rank h]
  simp

/-- The batch in the order in which it is taken. -/
def ranked (batch : List HostAction) : List HostAction := batch.insertionSort fun a b => a.rank ≤ b.rank

theorem present_eq (batch : List HostAction) (s : State) :
    present batch s = { s with pending := s.pending ++ ranked batch } := rfl

theorem ranked_perm (batch : List HostAction) : (ranked batch).Perm batch := List.perm_insertionSort _ batch

theorem ranked_ascending (batch : List HostAction) : (ranked batch).Pairwise fun a b => a.rank ≤ b.rank :=
  have : Std.Total fun a b : HostAction => a.rank ≤ b.rank := ⟨fun a b => le_total a.rank b.rank⟩
  have : IsTrans HostAction fun a b => a.rank ≤ b.rank := ⟨fun _ _ _ => le_trans⟩
  List.pairwise_insertionSort _ batch

theorem rank_of_mem_ofRank {k : Nat} {l : List HostAction} {a : HostAction} (h : a ∈ ofRank k l) : a.rank = k := by
  simpa using List.of_mem_filter h

end Sys2Proof.Machine

open Sys2Proof Sys2Proof.Machine in
/-- Settles O34: `clearSession` writes all in which the two states may differ. -/
theorem resetForgetsTheSession : Obligations.ResetForgetsTheSession := by
  unfold Obligations.ResetForgetsTheSession
  intro s₁ s₂ hopen₁ hopen₂ hfault hmax hstride hout hsmp hrawf hcorf hparams hpending
  rw [exec_reset_of_open hopen₁, exec_reset_of_open hopen₂]
  simp only [clearSession, hfault, hmax, hstride, hout, hsmp, hrawf, hcorf, hparams, hpending]

open Sys2Proof Sys2Proof.Machine in
/-- Settles O35: outside `Closed` the event is `closeBlock`; a closed block that meets the invariant is empty already. -/
theorem closeShutsTheBlock : Obligations.CloseShutsTheBlock := by
  unfold Obligations.CloseShutsTheBlock
  refine ⟨fun s hopen => exec_close_of_open hopen, fun s hinv => ?_⟩
  by_cases hphase : s.phase = .closed
  · exact (exec_close_of_closed hphase).trans (congrArg _ (closeBlock_of_closed hinv.closed hphase).symm)
  · exact exec_close_of_open hphase

open Sys2Proof Sys2Proof.Machine in
/-- Settles O36: outside `Closed` the event is `configure`, which refuses a stride of 0. -/
theorem configWritesBothOrNeither : Obligations.ConfigWritesBothOrNeither := by
  unfold Obligations.ConfigWritesBothOrNeither
  refine ⟨?writes, ?refuses, fun m st s hclosed => exec_config_of_closed m st hclosed⟩
  case writes =>
    intro m st s hopen hst
    rw [exec_config_of_open m st hopen, configure_of_ne_zero m hst]
  case refuses =>
    intro m s
    by_cases hphase : s.phase = .closed
    · exact exec_config_of_closed m 0 hphase
    · rw [exec_config_of_open m 0 hphase, configure_zero]

open Sys2Proof Sys2Proof.Machine in
/-- Settles O39: the row of `APPEND` is `deliver_phase_of_checkedOnce`; the other events write the phase they name. -/
theorem phaseTable : Obligations.PhaseTable := by
  unfold Obligations.PhaseTable
  intro c m st s hr
  refine ⟨?append, ?reset, ?close, ?config⟩
  case append =>
    intro t h hfault
    by_cases hphase : s.phase = .closed
    · cases (exec_append_of_closed c hphase).symm.trans h
      simp [hphase]
    cases (exec_append_of_open hphase).symm.trans h
    have fault_closes : (deliver c s).fault ≠ .none → (deliver c s).phase = .closed := by
      intro hne
      rcases deliver_cases (c := c) hphase with overflowed | ⟨-, -, advanced⟩
      · exact overflowed ▸ rfl
      · exact (advanced.fault_cases.resolve_right fun same => hne (same.trans hfault)).phase
    refine ⟨fault_closes, fun hnone => ?_⟩
    rw [deliver_phase_of_checkedOnce hr hphase (by simp [hnone])]
    cases hp : s.phase with
    | closed => exact absurd hp hphase
    | streaming => rfl
    | idle => rfl
    | synchronizing => rfl
  case reset =>
    intro t h
    by_cases hphase : s.phase = .closed
    · cases (exec_reset_of_closed hphase).symm.trans h
      simp [hphase]
    · cases (exec_reset_of_open hphase).symm.trans h
      simp [hphase]
  case close =>
    intro t h
    by_cases hphase : s.phase = .closed
    · cases (exec_close_of_closed hphase).symm.trans h
      exact hphase
    · cases (exec_close_of_open hphase).symm.trans h
      rfl
  case config =>
    intro t h
    by_cases hphase : s.phase = .closed
    · cases (exec_config_of_closed m st hphase).symm.trans h
      rfl
    · cases (exec_config_of_open m st hphase).symm.trans h
      simp

open Sys2Proof Sys2Proof.Machine in
/-- Settles O41: the batch sorted by rank is its actions of each rank in turn, and a rank names a constructor. -/
theorem simultaneousEventsAreRanked : Obligations.SimultaneousEventsAreRanked := by
  unfold Obligations.SimultaneousEventsAreRanked
  intro batch s
  refine ⟨ofRank 0 (ranked batch), ofRank 1 (ranked batch), ofRank 2 (ranked batch), ofRank 3 (ranked batch),
    ofRank 4 (ranked batch), ?_, ?_, ?_, ?_, ?_, ?_, ?_⟩
  · rw [present_eq, ofRank_append_all (ranked_ascending batch)]
  · rw [ofRank_append_all (ranked_ascending batch)]
    exact ranked_perm batch
  all_goals
    intro a ha
    have rank_eq := rank_of_mem_ofRank ha
    cases a <;> simp_all [HostAction.rank]

end

