-- ==== Sys2Proof/Proofs/StreamDelivery.lean ====
section
/-!
PROOFS. A stream delivered in chunks. Without a capacity the bytes that come later do not change what the pass does with
those before them (40_byte_accumulator_pass.md R117), intact records decode in order (42_sample_sync_decoder.md R148), and
with any capacities the frames completed are counted by the start-flagged samples (43_frame_assembler.md R165).
-/

namespace Sys2Proof.Machine

variable {s t : State}

/-! ### An unbounded frame buffer -/

theorem roomBeyond_of_unbounded (h : s.params.frameCap = none) (n : Nat) : RoomBeyond n s := by
  intro cap hcap
  rw [h] at hcap
  cases hcap

theorem takeSample_phase_of_unbounded (r : RawSample) (h : s.params.frameCap = none) :
    (takeSample r s).phase = s.phase := by
  cases hc : closesFrame r s with
  | false => rw [takeSample_of_not_closes hc (roomBeyond_of_unbounded h _)]
  | true => rw [takeSample_of_closes hc (roomBeyond_of_unbounded h _)]

theorem windowStep_phase_of_unbounded (w : Window) (h : s.params.frameCap = none) :
    (windowStep w s).phase = s.phase := by
  cases hv : valid w with
  | true => rw [windowStep_of_valid hv, takeSample_phase_of_unbounded _ h]
  | false => rw [windowStep_of_invalid hv]; rfl

/-- Without a capacity the loop takes no fault. -/
theorem sampleLoop_phase_of_unbounded (hopen : s.phase ≠ .closed) (h : s.params.frameCap = none) :
    (sampleLoop s).phase = s.phase := by
  refine sampleLoop_induction_of_open (P := fun s t => s.params.frameCap = none → t.phase = s.phase)
    (fun _ _ _ => rfl) ?_ s hopen h
  intro s w _ _ ih h
  rw [ih (by simpa using h), windowStep_phase_of_unbounded w h]

/-! ### Bytes that come later -/

variable {b : List Byte}

theorem takeSample_appendBytes (r : RawSample) (h : s.params.frameCap = none) (hk : recordLen ≤ s.buf.length) :
    takeSample r (appendBytes b s) = appendBytes b (takeSample r s) := by
  have behind : (s.buf ++ b).drop 5 = s.buf.drop 5 ++ b := List.drop_append_of_le_length hk
  cases hc : closesFrame r s with
  | false =>
    rw [takeSample_of_not_closes hc (roomBeyond_of_unbounded h _),
      takeSample_of_not_closes (s := appendBytes b s) hc (roomBeyond_of_unbounded h _), appendBytes_buf, behind]
    rfl
  | true =>
    rw [takeSample_of_closes hc (roomBeyond_of_unbounded h _),
      takeSample_of_closes (s := appendBytes b s) hc (roomBeyond_of_unbounded h _), appendBytes_buf, behind]
    rfl

theorem windowStep_appendBytes {w : Window} (h : s.params.frameCap = none) (hw : windowAt s.buf = some w) :
    windowStep w (appendBytes b s) = appendBytes b (windowStep w s) := by
  have hk := recordLen_le_of_windowAt hw
  cases hv : valid w with
  | true => rw [windowStep_of_valid hv, windowStep_of_valid hv, takeSample_appendBytes _ h hk]
  | false =>
    have behind : (s.buf ++ b).drop 1 = s.buf.drop 1 ++ b :=
      List.drop_append_of_le_length (le_trans (by decide) hk)
    rw [windowStep_of_invalid hv, windowStep_of_invalid hv, skipByte, consume, appendBytes_buf, behind]
    rfl

/-- The loop run over the first bytes and then over all that is left is the loop over all of them. -/
theorem sampleLoop_appendBytes_sampleLoop (b : List Byte) (hopen : s.phase ≠ .closed) (h : s.params.frameCap = none) :
    sampleLoop (appendBytes b (sampleLoop s)) = sampleLoop (appendBytes b s) := by
  refine sampleLoop_induction_of_open
    (P := fun s t => s.params.frameCap = none → sampleLoop (appendBytes b t) = sampleLoop (appendBytes b s))
    (fun _ _ _ => rfl) ?_ s hopen h
  intro s w hopen hw ih h
  have hw' : windowAt (appendBytes b s).buf = some w := windowAt_append hw b
  rw [ih (by simpa using h), sampleLoop_of_window (s := appendBytes b s) hopen hw', windowStep_appendBytes h hw]

theorem checkDescriptor_appendBytes (hk : descLen ≤ s.buf.length) :
    checkDescriptor (appendBytes b s) = appendBytes b (checkDescriptor s) := by
  have behind : (s.buf ++ b).drop descLen = s.buf.drop descLen ++ b := List.drop_append_of_le_length hk
  have same_head : signatureAt (appendBytes b s).buf = signatureAt s.buf := signatureAt_append (le_trans (by decide) hk) b
  unfold checkDescriptor
  rw [same_head]
  split
  · rw [skipDescriptor, consume, appendBytes_buf, behind]
    rfl
  · rfl

/-- R117 for the pass: run on the first bytes and then on all that is left, it ends as if run on all of them. -/
theorem parsePass_appendBytes_parsePass (b : List Byte) (hr : s.params.descRecheck = false)
    (h : s.params.frameCap = none) (hopen : s.phase ≠ .closed) :
    parsePass (appendBytes b (parsePass s)) = parsePass (appendBytes b s) := by
  rcases parsePass_cases s with ⟨-, -, he⟩ | ⟨hd, hk, he⟩ | ⟨hd, he⟩ <;> rw [he]
  · have still_to_check : descPending (appendBytes b s) = true := hd
    have streams : (sampleLoop (checkDescriptor s)).phase = .streaming :=
      sampleLoop_phase_of_unbounded (checkDescriptor_open s) (by simpa using h)
    have checked : descPending (appendBytes b (sampleLoop (checkDescriptor s))) = false := by
      have params := (sampleLoop_advances (checkDescriptor_open s)).settings.params
      exact descPending_of_streaming (by simpa [params] using hr) streams
    rw [parsePass_of_checked checked, sampleLoop_appendBytes_sampleLoop b (checkDescriptor_open s) (by simpa using h),
      parsePass_of_check still_to_check (by simp; omega), checkDescriptor_appendBytes hk]
  · have same_phase := sampleLoop_phase_of_unbounded hopen h
    have same_params := (sampleLoop_advances hopen).settings.params
    have checked : descPending (appendBytes b (sampleLoop s)) = false := by
      rw [← hd, descPending_of_checkedOnce (by simpa [same_params] using hr), descPending_of_checkedOnce hr,
        appendBytes_phase, same_phase]
    have checked' : descPending (appendBytes b s) = false := hd
    rw [parsePass_of_checked checked, parsePass_of_checked checked', sampleLoop_appendBytes_sampleLoop b hopen h]

/-! ### Chunks -/

/-- A block that is not closed, with no capacity, in the reading in which the descriptor is checked once. -/
structure Unbounded (s : State) : Prop where
  isOpen : s.phase ≠ .closed
  bufCap : s.params.bufCap = none
  frameCap : s.params.frameCap = none
  checkedOnce : s.params.descRecheck = false

theorem Unbounded.received (h : Unbounded s) (c : List Byte) : Unbounded (received c s) :=
  ⟨received_open h.isOpen, h.bufCap, h.frameCap, h.checkedOnce⟩

theorem Unbounded.parsePass (h : Unbounded s) : Unbounded (parsePass s) := by
  have params : (Machine.parsePass s).params = s.params := (parsePass_advances h.isOpen).settings.params
  refine ⟨?_, by rw [params, h.bufCap], by rw [params, h.frameCap], by rw [params, h.checkedOnce]⟩
  rcases parsePass_cases s with ⟨-, -, he⟩ | ⟨-, -, he⟩ | ⟨-, he⟩ <;> rw [he]
  · exact h.isOpen
  · rw [sampleLoop_phase_of_unbounded (checkDescriptor_open s) (by simpa using h.frameCap)]
    exact checkDescriptor_open s
  · rw [sampleLoop_phase_of_unbounded h.isOpen h.frameCap]
    exact h.isOpen

theorem Unbounded.exec_append (h : Unbounded s) (c : List Byte) :
    exec (.append c) s = .next (Machine.parsePass (Machine.received c s)) :=
  exec_append_of_fits h.isOpen (by simp [bufOverflows, h.bufCap])

/-- R117: two chunks one after the other are the two at once, wherever the first leaves the block. -/
theorem exec_append_append (h : Unbounded s) (b c : List Byte) :
    exec (.append b) (parsePass (received c s)) = exec (.append (c ++ b)) s := by
  have first := h.received c
  have not_idle := parsePass_not_idle first.isOpen (received_not_idle c s)
  have both : received (c ++ b) s = appendBytes b (received c s) := by simp [received, appendBytes]
  rw [first.parsePass.exec_append, received_of_not_idle not_idle,
    parsePass_appendBytes_parsePass b first.checkedOnce first.frameCap first.isOpen, ← both, h.exec_append]

theorem deliverAll_cons {c : List Byte} {cs : List (List Byte)} (h : exec (.append c) s = .next t) :
    deliverAll (c :: cs) s = deliverAll cs t := by
  rw [deliverAll, h]

theorem deliverAll_eq_exec_append (cs : List (List Byte)) (c : List Byte) (h : Unbounded s) :
    deliverAll (c :: cs) s = exec (.append (c ++ cs.flatten)) s := by
  induction cs generalizing c s with
  | nil =>
    rw [deliverAll_cons (h.exec_append c), List.flatten_nil, List.append_nil, h.exec_append]
    rfl
  | cons d ds ih =>
    rw [deliverAll_cons (h.exec_append c), ih d (h.received c).parsePass, exec_append_append h, List.flatten_cons]

/-! ### Intact records -/

/-- The bytes of a list of samples, record after record (R94). -/
def recordsOf (rs : List RawSample) : List Byte := (rs.map fun r => (enc r).bytes).flatten

theorem windowStep_enc (r : RawSample) (s : State) : windowStep (enc r) s = takeSample r s := by
  rw [windowStep_of_valid (valid_enc r), decodeWindow_enc]

theorem takeSample_of_record {r : RawSample} {rest : List Byte} (h : s.params.frameCap = none)
    (hb : s.buf = (enc r).bytes ++ rest) : (takeSample r s).buf = rest := by
  have after_record : s.buf.drop 5 = rest := by rw [hb]; rfl
  cases hc : closesFrame r s with
  | false => rw [takeSample_of_not_closes hc (roomBeyond_of_unbounded h _), after_record]
  | true => rw [takeSample_of_closes hc (roomBeyond_of_unbounded h _), after_record]

theorem sampleLoop_of_records {rs : List RawSample} (hopen : s.phase ≠ .closed) (h : s.params.frameCap = none)
    (hb : s.buf = recordsOf rs) :
    (sampleLoop s).smpTap = s.smpTap ++ rs ∧ (sampleLoop s).pc = s.pc + 5 * rs.length ∧ (sampleLoop s).buf = [] := by
  induction rs generalizing s with
  | nil =>
    have empty : s.buf = [] := hb
    rw [sampleLoop_of_no_window (by rw [empty]; rfl)]
    exact ⟨(List.append_nil _).symm, rfl, empty⟩
  | cons r rs ih =>
    have head : s.buf = (enc r).bytes ++ recordsOf rs := hb
    have hw : windowAt s.buf = some (enc r) := windowAt_eq_some.mpr ⟨_, head⟩
    obtain ⟨htap, hpc, hbuf⟩ := ih (s := takeSample r s) (by rwa [takeSample_phase_of_unbounded r h])
      (by rw [(takeSample_sameSettings r s).params, h]) (takeSample_of_record h head)
    rw [sampleLoop_of_window hopen hw, windowStep_enc]
    refine ⟨?_, ?_, hbuf⟩
    · rw [htap, takeSample_smpTap, List.append_assoc]
      rfl
    · rw [hpc, takeSample_pc, List.length_cons, recordLen]
      omega

/-! ### Frames completed -/

/-- The start-flagged samples of a list. -/
def starts (rs : List RawSample) : Nat := rs.countP fun r => r.startFlag

/-- A start was seen only if the frame in progress is not empty (R35(d)). -/
def StartHasFrame (s : State) : Prop := s.seenStart = true → s.curFrame ≠ []

/-- Between `s` and `t` the samples `new` were decoded, and every start among them closed a frame but for the first of the
session; unless the block is closed, it remembers whether there was one. -/
structure DecodesAndFrames (new : List RawSample) (s t : State) : Prop where
  smp : t.smpTap = s.smpTap ++ new
  rawf : t.rawfTap.length = s.rawfTap.length + (starts new - if s.seenStart then 0 else 1)
  seen : t.phase ≠ .closed → t.seenStart = (s.seenStart || decide (0 < starts new))
  held : StartHasFrame t

theorem DecodesAndFrames.trans {u : State} {new new' : List RawSample} (h : DecodesAndFrames new s t)
    (hopen : t.phase ≠ .closed) (h' : DecodesAndFrames new' t u) : DecodesAndFrames (new ++ new') s u := by
  have count : starts (new ++ new') = starts new + starts new' := List.countP_append
  have seen := h.seen hopen
  refine ⟨?_, ?_, ?_, h'.held⟩
  · rw [h'.smp, h.smp, List.append_assoc]
  · rw [h'.rawf, h.rawf, count, seen]
    cases s.seenStart with
    | true => simp; omega
    | false =>
      rcases Nat.eq_zero_or_pos (starts new) with hz | hpos
      · simp [hz]
      · simp [hpos]; omega
  · intro hopen'
    rw [h'.seen hopen', seen, count, Bool.or_assoc]
    congr 1
    rw [Bool.eq_iff_iff]
    simp

/-- An operation that decodes nothing and leaves the assembler as it is. -/
theorem DecodesAndFrames.of_unchanged (held : StartHasFrame s) (smp : t.smpTap = s.smpTap := by rfl)
    (rawf : t.rawfTap = s.rawfTap := by rfl) (seen : t.seenStart = s.seenStart := by rfl)
    (frame : t.curFrame = s.curFrame := by rfl) : DecodesAndFrames [] s t where
  smp := by rw [smp, List.append_nil]
  rawf := by rw [rawf]; simp [starts]
  seen := by simp [seen, starts]
  held := by rwa [StartHasFrame, seen, frame]

/-- The fault decodes nothing more. -/
theorem raiseBufferGrowthFailure_decodesAndFrames (s : State) :
    DecodesAndFrames [] s (raiseBufferGrowthFailure s) where
  smp := (List.append_nil _).symm
  rawf := by simp [starts]
  seen := fun hopen => absurd rfl hopen
  held := fun h => nomatch h

/-- A start closes the frame exactly when a start was seen before it (R161). -/
theorem closesFrame_eq_of_startHasFrame (held : StartHasFrame s) (r : RawSample) :
    closesFrame r s = (r.startFlag && s.seenStart) := by
  cases hseen : s.seenStart with
  | false => simp [closesFrame, hseen]
  | true => simp [closesFrame, hseen, held hseen]

theorem takeSample_decodesAndFrames (held : StartHasFrame s) (r : RawSample) :
    DecodesAndFrames [r] s (takeSample r s) where
  smp := takeSample_smpTap r s
  rawf := by
    rw [(takeSample_traces r s).2.1]
    have closes := closesFrame_eq_of_startHasFrame held r
    cases hflag : r.startFlag <;> cases hseen : s.seenStart <;> rw [hflag, hseen] at closes
    case true.true => simp [afterClosing_of_closes closes, completeFrame_eq, starts, hflag]
    all_goals simp [afterClosing_of_not_closes closes, starts, hflag]
  seen := by
    intro hopen
    obtain ⟨-, -, -, -, hseen⟩ := (takeSample_cases r s).resolve_left (not_faultTaken_of_open hopen)
    rw [hseen]
    cases hflag : r.startFlag <;> simp [starts, hflag]
  held := by
    rcases takeSample_cases r s with taken | ⟨-, -, -, hframe, -⟩
    · simp [StartHasFrame, taken.seenStart]
    · simp [StartHasFrame, hframe]

theorem windowStep_decodesAndFrames (held : StartHasFrame s) (w : Window) :
    ∃ new, DecodesAndFrames new s (windowStep w s) := by
  cases hv : valid w with
  | true => exact ⟨_, windowStep_of_valid hv s ▸ takeSample_decodesAndFrames held (decodeWindow w)⟩
  | false => exact ⟨[], windowStep_of_invalid hv s ▸ .of_unchanged held⟩

theorem sampleLoop_decodesAndFrames (held : StartHasFrame s) (hopen : s.phase ≠ .closed) :
    ∃ new, DecodesAndFrames new s (sampleLoop s) := by
  refine sampleLoop_induction_of_open (P := fun s t => StartHasFrame s → ∃ new, DecodesAndFrames new s t)
    (fun s _ held => ⟨[], .of_unchanged held⟩) ?_ s hopen held
  intro s w hopen _ ih held
  obtain ⟨new, first⟩ := windowStep_decodesAndFrames held w
  rcases windowStep_phase_cases w s with taken | same
  · exact ⟨new, by rwa [sampleLoop_of_faultTaken taken]⟩
  · obtain ⟨new', rest⟩ := ih first.held
    exact ⟨new ++ new', first.trans (same ▸ hopen) rest⟩

theorem checkDescriptor_decodesAndFrames (held : StartHasFrame s) : DecodesAndFrames [] s (checkDescriptor s) := by
  unfold checkDescriptor
  split <;> exact .of_unchanged held

theorem parsePass_decodesAndFrames (held : StartHasFrame s) (hopen : s.phase ≠ .closed) :
    ∃ new, DecodesAndFrames new s (parsePass s) := by
  rcases parsePass_cases s with ⟨-, -, he⟩ | ⟨-, -, he⟩ | ⟨-, he⟩ <;> rw [he]
  · exact ⟨[], .of_unchanged held⟩
  · have checked := checkDescriptor_decodesAndFrames held
    obtain ⟨new, looped⟩ := sampleLoop_decodesAndFrames checked.held (checkDescriptor_open s)
    exact ⟨[] ++ new, checked.trans (checkDescriptor_open s) looped⟩
  · exact sampleLoop_decodesAndFrames held hopen

theorem deliver_decodesAndFrames (held : StartHasFrame s) (hopen : s.phase ≠ .closed) (c : List Byte) :
    ∃ new, DecodesAndFrames new s (deliver c s) := by
  rcases deliver_cases (c := c) hopen with overflowed | ⟨-, passed, -⟩
  · exact ⟨[], overflowed ▸ raiseBufferGrowthFailure_decodesAndFrames s⟩
  · have start : DecodesAndFrames [] s (received c s) := .of_unchanged held
    obtain ⟨new, pass⟩ := parsePass_decodesAndFrames start.held (received_open (c := c) hopen)
    exact ⟨[] ++ new, passed ▸ start.trans (received_open hopen) pass⟩

theorem deliverAll_of_closed (cs : List (List Byte)) (h : s.phase = .closed) : deliverAll cs s = .next s := by
  induction cs with
  | nil => rfl
  | cons c cs ih => rw [deliverAll_cons (exec_append_of_closed c h), ih]

theorem deliverAll_decodesAndFrames (cs : List (List Byte)) (held : StartHasFrame s) (h : deliverAll cs s = .next t) :
    ∃ new, DecodesAndFrames new s t := by
  induction cs generalizing s with
  | nil =>
    cases h
    exact ⟨[], .of_unchanged held⟩
  | cons c cs ih =>
    by_cases hphase : s.phase = .closed
    · cases (deliverAll_of_closed _ hphase).symm.trans h
      exact ⟨[], .of_unchanged held⟩
    rw [deliverAll_cons (exec_append_of_open hphase)] at h
    obtain ⟨new, first⟩ := deliver_decodesAndFrames held hphase c
    by_cases hclosed : (deliver c s).phase = .closed
    · cases (deliverAll_of_closed cs hclosed).symm.trans h
      exact ⟨new, first⟩
    · obtain ⟨new', rest⟩ := ih first.held h
      exact ⟨new ++ new', first.trans hclosed rest⟩

end Sys2Proof.Machine

open Sys2Proof Sys2Proof.Machine in
/-- Settles O30: two chunks are one by `exec_append_append`, and so, chunk after chunk, are all. -/
theorem chunkingDoesNotMatter : Obligations.ChunkingDoesNotMatter := by
  unfold Obligations.ChunkingDoesNotMatter
  intro c cs s hopen hcap hframe hr
  exact deliverAll_eq_exec_append cs c ⟨hopen, hcap, hframe, hr⟩

open Sys2Proof Sys2Proof.Machine in
/-- Settles O31: the pass is the sample loop, which takes record after record. -/
theorem intactRecordsDecodeInOrder : Obligations.IntactRecordsDecodeInOrder := by
  unfold Obligations.IntactRecordsDecodeInOrder
  intro rs s hp hd hb hcap hframe
  have hopen : (appendBytes (recordsOf rs) s).phase ≠ .closed := by simp [hp]
  have waiting : (appendBytes (recordsOf rs) s).buf = recordsOf rs := by simp [hb]
  obtain ⟨htap, hpc, hbuf⟩ := sampleLoop_of_records hopen (by simpa using hframe) waiting
  refine ⟨_, exec_append_of_streaming hp hd (by simp [bufOverflows, hcap]), htap, hpc, hbuf, ?_⟩
  exact (sampleLoop_phase_of_unbounded hopen (by simpa using hframe)).trans hp

open Sys2Proof Sys2Proof.Machine in
/-- Settles O32: by `deliverAll_decodesAndFrames`, whose relation counts frames and starts along every operation. -/
theorem framesCompletedAreStartsLessOne : Obligations.FramesCompletedAreStartsLessOne := by
  unfold Obligations.FramesCompletedAreStartsLessOne
  intro cs s t held h
  obtain ⟨new, counted⟩ := deliverAll_decodesAndFrames cs held h
  exact ⟨new, counted.smp, counted.rawf⟩

end

