-- ==== Sys2Proof/Proofs/StepCases.lean ====
section
/-!
PROOFS. What a step runs (30_encoding.md R80, 46_session_control.md R205, 70_reset_and_hazards.md R242), said once: a
descriptor skipped, a window's step, the host's next action, or nothing. What holds of every step is read off these cases.
-/

namespace Sys2Proof.Machine

variable {s t : State}

/-! ### The item at the cursor -/

/-- A stream item can stand at the cursor in these phases only (R80). -/
abbrev Running (s : State) : Prop := s.phase = .synchronizing ∨ s.phase = .streaming

theorem Running.ne_closed (h : Running s) : s.phase ≠ .closed := by
  rcases h with h | h <;> simp [h]

theorem itemOf_sample (bs : List Byte) : itemOf .sample recordLen bs = (windowAt bs).map classify := by
  match bs with
  | [] | [_] | [_, _] | [_, _, _] | [_, _, _, _] => rfl
  | _ :: _ :: _ :: _ :: _ :: _ => rfl

theorem itemOf_descriptor {bs rest : List Byte} {i : Instr} (h : decode .descriptor bs = .ok i) :
    itemOf .descriptor descLen (bs ++ rest) = some i := by
  have whole : (bs ++ rest).take descLen = bs := by
    simp only [decode, decodeDescriptor] at h
    split at h
    · rfl
    · cases h
  rw [itemOf, whole, h]

/-- A descriptor can be read where its signature stands and seven bytes are there (R84). -/
theorem exists_descriptor {bs : List Byte} (hsig : signatureAt bs = true) (hk : descLen ≤ bs.length) :
    ∃ t2 t3 t4 t5 t6, itemOf .descriptor descLen bs = some (.desc t2 t3 t4 t5 t6) := by
  match bs, hk with
  | b0 :: b1 :: t2 :: t3 :: t4 :: t5 :: t6 :: rest, _ =>
    have signature : b0 = sig0 ∧ b1 = sig1 := by simpa [signatureAt] using hsig
    have read : decode .descriptor [b0, b1, t2, t3, t4, t5, t6] = .ok (.desc t2 t3 t4 t5 t6) := if_pos signature
    exact ⟨t2, t3, t4, t5, t6, itemOf_descriptor (rest := rest) read⟩

theorem fetchItem_of_not_running (h : ¬ Running s) : fetchItem s = none := if_neg h

theorem fetchItem_of_checked (h : Running s) (hd : descPending s = false) :
    fetchItem s = (windowAt s.buf).map classify := by
  rw [fetchItem, if_pos h, hd, ← itemOf_sample]
  rfl

theorem fetchItem_of_held (hd : descPending s = true) (hk : s.buf.length < descLen) : fetchItem s = none := by
  simp [fetchItem, hd, hk]

theorem fetchItem_of_signature (h : Running s) (hd : descPending s = true) (hk : descLen ≤ s.buf.length)
    (hsig : signatureAt s.buf = true) : fetchItem s = itemOf .descriptor descLen s.buf := by
  rw [fetchItem, if_pos h, if_pos hd, if_neg (Nat.not_lt.mpr hk), if_pos hsig]

theorem fetchItem_of_no_signature (h : Running s) (hd : descPending s = true) (hk : descLen ≤ s.buf.length)
    (hsig : signatureAt s.buf = false) : fetchItem s = (windowAt s.buf).map classify := by
  rw [fetchItem, if_pos h, if_pos hd, if_neg (Nat.not_lt.mpr hk), hsig, ← itemOf_sample]
  rfl

/-- Which item a step finds at the cursor, if any. -/
theorem fetchItem_cases (s : State) :
    fetchItem s = none ∨
    (Running s ∧ descPending s = true ∧ descLen ≤ s.buf.length ∧
      ∃ t2 t3 t4 t5 t6, fetchItem s = some (.desc t2 t3 t4 t5 t6)) ∨
    (Running s ∧ ∃ w, windowAt s.buf = some w ∧ fetchItem s = some (classify w)) := by
  have window_or_none (hrun : Running s) (h : fetchItem s = (windowAt s.buf).map classify) :
      fetchItem s = none ∨ (Running s ∧ ∃ w, windowAt s.buf = some w ∧ fetchItem s = some (classify w)) := by
    cases hw : windowAt s.buf with
    | none => exact .inl (by rw [h, hw]; rfl)
    | some w => exact .inr ⟨hrun, w, rfl, by rw [h, hw]; rfl⟩
  by_cases hrun : Running s
  · cases hd : descPending s with
    | false => exact (window_or_none hrun (fetchItem_of_checked hrun hd)).imp id .inr
    | true =>
      rcases Nat.lt_or_ge s.buf.length descLen with hk | hk
      · exact .inl (fetchItem_of_held hd hk)
      cases hsig : signatureAt s.buf with
      | true =>
        obtain ⟨t2, t3, t4, t5, t6, item⟩ := exists_descriptor hsig hk
        exact .inr (.inl ⟨hrun, rfl, hk, t2, t3, t4, t5, t6, (fetchItem_of_signature hrun hd hk hsig).trans item⟩)
      | false => exact (window_or_none hrun (fetchItem_of_no_signature hrun hd hk hsig)).imp id .inr
  · exact .inl (fetchItem_of_not_running hrun)

/-! ### The step that runs an item -/

theorem step_of_item {i : Instr} (h : fetchItem s = some i) :
    step s = mapNext (afterItem i) (exec i (beforeItem i s)) := by
  rw [step, fetch, h]

theorem step_of_desc {t2 t3 t4 t5 t6 : Byte} (h : fetchItem s = some (.desc t2 t3 t4 t5 t6)) :
    step s = mapNext enterStreaming (exec (.desc t2 t3 t4 t5 t6) s) := step_of_item h

/-- A window's item runs in `Streaming` and nothing is done after it. -/
theorem step_of_classify {w : Window} (h : fetchItem s = some (classify w)) :
    step s = exec (classify w) (enterStreaming s) := by
  have not_desc : beforeItem (classify w) s = enterStreaming s ∧ ∀ t, afterItem (classify w) t = t := by
    unfold classify
    split
    · split <;> exact ⟨rfl, fun _ => rfl⟩
    · exact ⟨rfl, fun _ => rfl⟩
  rw [step_of_item h, not_desc.1]
  cases exec (classify w) (enterStreaming s) <;> simp [mapNext, not_desc.2]

theorem enterStreaming_of_streaming (hp : s.phase = .streaming) : enterStreaming s = s := by
  cases s
  subst hp
  rfl

theorem descAvailable_of_running (h : Running s) (hd : descPending s = true) : descAvailable s = true := by
  rcases h with h | h <;> simp [descAvailable, hd, h]

/-! ### The step that runs the host's next action -/

/-- The state after a host action. -/
def HostAction.effect : HostAction → State → State
  | .append c => unlessClosed (deliver c)
  | .reset => unlessClosed clearSession
  | .close => unlessClosed closeBlock
  | .config m st => unlessClosed (configure m st)
  | .sendScan => passBy
  | .sendStop => passBy

theorem exec_instr (a : HostAction) (s : State) : exec a.instr s = .next (a.effect s) := by
  cases a <;> rfl

theorem effect_of_closed (a : HostAction) (h : s.phase = .closed) : a.effect s = s := by
  cases a with
  | append | reset | close | config => exact unlessClosed_of_closed _ h
  | sendScan | sendStop => rfl

/-- What a host action does: nothing, or, outside `Closed`, one of the four events' effects, a `CONFIG` with a stride
other than 0. -/
theorem effect_cases (a : HostAction) (s : State) :
    a.effect s = s ∨
    (s.phase ≠ .closed ∧
      ((∃ c, a.effect s = deliver c s) ∨ a.effect s = clearSession s ∨ a.effect s = closeBlock s ∨
        ∃ m st, a = .config m st ∧ st ≠ 0 ∧ a.effect s = { s with maxRange := m, stride := st })) := by
  by_cases hphase : s.phase = .closed
  · exact .inl (effect_of_closed a hphase)
  cases a with
  | append c => exact .inr ⟨hphase, .inl ⟨c, unlessClosed_of_open _ hphase⟩⟩
  | reset => exact .inr ⟨hphase, .inr (.inl (unlessClosed_of_open _ hphase))⟩
  | close => exact .inr ⟨hphase, .inr (.inr (.inl (unlessClosed_of_open _ hphase)))⟩
  | config m st =>
    have configured : (HostAction.config m st).effect s = configure m st s := unlessClosed_of_open _ hphase
    by_cases hst : st = 0
    · exact .inl (by rw [configured, hst, configure_zero])
    · exact .inr ⟨hphase, .inr (.inr (.inr ⟨m, st, rfl, hst, configured.trans (configure_of_ne_zero m hst s)⟩))⟩
  | sendScan | sendStop => exact .inl rfl

theorem step_of_action {a : HostAction} {rest : List HostAction} (h : fetchItem s = none) (hp : s.pending = a :: rest) :
    step s = exec a.instr { s with pending := rest } := by
  rw [step, fetch, h, hp]

theorem step_of_nothing (h : fetchItem s = none) (hp : s.pending = []) : step s = .next s := by
  rw [step, fetch, h, hp]

/-! ### The cases -/

/-- What a step does, in every state: it skips a descriptor, or runs a window's step in `Streaming`, or the next action
of the host's, or waits. -/
theorem step_cases (s : State) :
    (Running s ∧ step s = .next (enterStreaming (skipDescriptor s))) ∨
    (∃ w, Running s ∧ windowAt s.buf = some w ∧ step s = .next (windowStep w (enterStreaming s))) ∨
    (∃ a rest, fetchItem s = none ∧ s.pending = a :: rest ∧ step s = .next (a.effect { s with pending := rest })) ∨
    (fetchItem s = none ∧ s.pending = [] ∧ step s = .next s) := by
  rcases fetchItem_cases s with hnone | ⟨hrun, hd, hk, t2, t3, t4, t5, t6, hitem⟩ | ⟨hrun, w, hw, hitem⟩
  · cases hp : s.pending with
    | nil => exact .inr (.inr (.inr ⟨hnone, rfl, step_of_nothing hnone hp⟩))
    | cons a rest =>
      exact .inr (.inr (.inl ⟨a, rest, hnone, rfl, (step_of_action hnone hp).trans (exec_instr a _)⟩))
  · have ran : exec (.desc t2 t3 t4 t5 t6) s = .next (skipDescriptor s) :=
      onItem_of_ready (descAvailable_of_running hrun hd) hk
    exact .inl ⟨hrun, by rw [step_of_desc hitem, ran]; rfl⟩
  · exact .inr (.inl ⟨w, hrun, hw, (step_of_classify hitem).trans (exec_classify rfl hw)⟩)

theorem step_of_closed (h : s.phase = .closed) : step s = .next { s with pending := s.pending.tail } := by
  have no_item : fetchItem s = none := fetchItem_of_not_running fun hrun => hrun.ne_closed h
  cases hp : s.pending with
  | nil => rw [step_of_nothing no_item hp, List.tail_nil, ← hp]
  | cons a rest =>
    rw [step_of_action no_item hp, exec_instr]
    exact congrArg _ (effect_of_closed (s := { s with pending := rest }) a h)

/-! ### What every step keeps -/

theorem effect_fault_cases (a : HostAction) (s : State) : FaultTaken (a.effect s) ∨ (a.effect s).fault = s.fault := by
  rcases effect_cases a s with he | ⟨hopen, ⟨c, he⟩ | he | he | ⟨m, st, -, -, he⟩⟩ <;> rw [he]
  · exact .inr rfl
  · rcases deliver_cases (c := c) hopen with overflowed | ⟨-, -, advanced⟩
    · exact .inl (overflowed ▸ raiseBufferGrowthFailure_faultTaken s)
    · exact advanced.fault_cases
  · exact .inr rfl
  · exact .inr rfl
  · exact .inr rfl

/-- A step takes the one fault or leaves `fault` as it is (R224, R230). -/
theorem step_fault_cases (h : step s = .next t) : FaultTaken t ∨ t.fault = s.fault := by
  rcases step_cases s with ⟨-, hs⟩ | ⟨w, -, hw, hs⟩ | ⟨a, rest, -, -, hs⟩ | ⟨-, -, hs⟩ <;> cases hs.symm.trans h
  · exact .inr rfl
  · exact (windowStep_advances (s := enterStreaming s) hw).fault_cases
  · exact effect_fault_cases a _
  · exact .inr rfl

/-- A host action keeps the settings, unless it is a `CONFIG` that is not refused. -/
theorem effect_settings_cases (a : HostAction) (s : State) :
    SameSettings s (a.effect s) ∨
    ∃ m st, a = .config m st ∧ st ≠ 0 ∧ a.effect s = { s with maxRange := m, stride := st } := by
  rcases effect_cases a s with he | ⟨hopen, ⟨c, he⟩ | he | he | ⟨m, st, ha, hst, he⟩⟩ <;> rw [he]
  · exact .inl ⟨rfl, rfl, rfl, rfl⟩
  · rcases deliver_cases (c := c) hopen with overflowed | ⟨-, -, advanced⟩
    · exact .inl (overflowed ▸ ⟨rfl, rfl, rfl, rfl⟩)
    · exact .inl (SameSettings.trans (t := received c s) ⟨rfl, rfl, rfl, rfl⟩ advanced.settings)
  · exact .inl ⟨rfl, rfl, rfl, rfl⟩
  · exact .inl ⟨rfl, rfl, rfl, rfl⟩
  · exact .inr ⟨m, st, ha, hst, rfl⟩

end Sys2Proof.Machine

open Sys2Proof Sys2Proof.Machine in
/-- Settles O10: in each of the four cases the step answers a next state. -/
theorem everyStepAnswersANextState : Obligations.EveryStepAnswersANextState := by
  unfold Obligations.EveryStepAnswersANextState
  intro s
  rcases step_cases s with ⟨-, hs⟩ | ⟨w, -, -, hs⟩ | ⟨a, rest, -, -, hs⟩ | ⟨-, -, hs⟩ <;> exact ⟨_, hs⟩

open Sys2Proof Sys2Proof.Machine in
/-- Settles O8: in each clause the bytes are what `fetchItem` reads, and the step runs that item. -/
theorem stepRunsTheItemAtTheCursor : Obligations.StepRunsTheItemAtTheCursor := by
  unfold Obligations.StepRunsTheItemAtTheCursor
  refine ⟨?window, ?descriptor, ?no_signature⟩
  case window =>
    intro s w rest i hp hd hb hi
    cases hi
    have hitem : fetchItem s = some (classify w) := by
      rw [fetchItem_of_checked (.inr hp) hd, hb, windowAt_bytes_append]
      rfl
    rw [step_of_classify hitem, enterStreaming_of_streaming hp]
  case descriptor =>
    intro s bs rest i hrun hd hb hi
    obtain ⟨rfl, -, hformat⟩ := encodeOfDecode .descriptor bs i (by simp) hi
    cases i with
    | desc t2 t3 t4 t5 t6 =>
      have hitem : fetchItem s = some (.desc t2 t3 t4 t5 t6) := by
        rw [fetchItem_of_signature hrun hd (by simp [hb, encode, descLen]) (by rw [hb]; rfl), hb, itemOf_descriptor hi]
      exact step_of_desc hitem
    | smpS | smpN | skip1 | append | reset | close | config | cmdScan | cmdStop => simp [Instr.format] at hformat
  case no_signature =>
    intro s w rest i hrun hd hb hk hsig hi
    cases hi
    have not_found : signatureAt s.buf = false := by
      have compared : signatureAt s.buf = (w.w0 == sig0 && w.w1 == sig1) := by rw [hb]; rfl
      rw [compared, Bool.and_eq_false_iff]
      exact hsig.imp beq_false_of_ne beq_false_of_ne
    have hitem : fetchItem s = some (classify w) := by
      rw [fetchItem_of_no_signature hrun hd hk not_found, hb, windowAt_bytes_append]
      rfl
    exact step_of_classify hitem

open Sys2Proof Sys2Proof.Machine in
/-- Settles O9: the two steps that find no item. -/
theorem stepRunsTheHostsNextAction : Obligations.StepRunsTheHostsNextAction := by
  unfold Obligations.StepRunsTheHostsNextAction
  exact ⟨fun _ _ _ h hp => step_of_action h hp, fun _ h hp => step_of_nothing h hp⟩

open Sys2Proof Sys2Proof.Machine in
/-- Settles O38: no item stands in `Closed`, and every action there answers the state it was given. -/
theorem closedIsAbsorbing : Obligations.ClosedIsAbsorbing := by
  unfold Obligations.ClosedIsAbsorbing
  exact fun s h => step_of_closed h

open Sys2Proof Sys2Proof.Machine in
/-- Settles O42: by `step_fault_cases`. -/
theorem faultIsStickyAndCloses : Obligations.FaultIsStickyAndCloses := by
  unfold Obligations.FaultIsStickyAndCloses
  intro s t h
  rcases step_fault_cases h with taken | same
  · exact ⟨fun _ => taken.fault, fun _ => ⟨taken.phase, taken.buf, taken.curFrame, taken.seenStart⟩⟩
  · exact ⟨fun hf => same.trans hf, fun hne => absurd same hne⟩

open Sys2Proof Sys2Proof.Machine in
/-- Settles O44: the first clause is O38's step; in the second an item keeps the settings, so the step took an action, and
the only one that changes them is a `CONFIG`. -/
theorem onlyConfigChangesTheSettings : Obligations.OnlyConfigChangesTheSettings := by
  unfold Obligations.OnlyConfigChangesTheSettings
  intro s t h
  refine ⟨?closed, fun hchange => ?config⟩
  case closed =>
    intro hphase
    cases (step_of_closed hphase).symm.trans h
    exact hphase
  case config =>
    have not_same (hmax : t.maxRange = s.maxRange) (hstride : t.stride = s.stride) : False :=
      hchange.elim (fun h => h hmax) (fun h => h hstride)
    rcases step_cases s with ⟨-, hs⟩ | ⟨w, -, -, hs⟩ | ⟨a, rest, -, hpending, hs⟩ | ⟨-, -, hs⟩ <;>
      cases hs.symm.trans h
    · exact (not_same rfl rfl).elim
    · exact (not_same (windowStep_maxRange _ w) (windowStep_stride _ w)).elim
    · rcases effect_settings_cases a { s with pending := rest } with same | ⟨m, st, rfl, hst, he⟩
      · exact (not_same same.maxRange same.stride).elim
      · rw [he]
        exact ⟨m, st, hpending, rfl, rfl, hst⟩
    · exact (not_same rfl rfl).elim

end

