-- ==== Sys2Proof/Proofs/StepInvariant.lean ====
section
/-!
PROOFS. Every step keeps the invariant (10_state.md R35). Between two steps no item stands at the cursor, so a step is a
host action. Inside a pass a part of the invariant holds, `Coherent`, which each window keeps; what the pass leaves waiting
at its end makes it whole again.
-/

namespace Sys2Proof.Machine

variable {s t : State}

/-! ### What is emitted -/

theorem pos_of_mem_distance_kept {m st : Half} {C : List CorSample} {x : Rat}
    (hx : x ∈ (decodedOutput (kept m st C)).distance) : 0 < x ∧ x < (m.toNat : Rat) := by
  obtain ⟨c, hc, rfl⟩ := List.mem_map.mp hx
  exact (inRange_iff m c).mp (List.of_mem_filter hc)

theorem quality_lt_of_mem {K : List CorSample} {q : BitVec 8} (hq : q ∈ (decodedOutput K).quality) : q.toNat < 64 := by
  obtain ⟨c, -, rfl⟩ := List.mem_map.mp hq
  rw [BitVec.toNat_setWidth_of_le (by decide)]
  exact c.quality.isLt

/-- A kept sample at least makes a `DecodedOutput` as R33 describes it. -/
theorem outputOk_kept {m st : Half} {C : List CorSample} (hne : kept m st C ≠ []) :
    outputOk (decodedOutput (kept m st C)) = true := by
  have some_kept : 1 ≤ (kept m st C).length := List.length_pos_of_ne_nil hne
  have distances : (decodedOutput (kept m st C)).distance.all (fun x => decide (0 < x)) = true :=
    List.all_eq_true.mpr fun x hx => decide_eq_true (pos_of_mem_distance_kept hx).1
  have qualities : (decodedOutput (kept m st C)).quality.all (fun q => decide (q.toNat < 64)) = true :=
    List.all_eq_true.mpr fun q hq => decide_eq_true (quality_lt_of_mem hq)
  rw [outputOk, distances, qualities]
  simp [decodedOutput, some_kept]

theorem completeFrame_tracesAgree (F : List RawSample) (h : TracesAgree s) : TracesAgree (completeFrame F s) := by
  obtain ⟨hout, hlen, hle⟩ := h
  rw [completeFrame_eq]
  by_cases hkept : kept s.maxRange s.stride (correct s.params F) = []
  · exact ⟨by simpa [hkept] using hout, by simp [hlen], by simp [hkept]; omega⟩
  · exact ⟨by simpa [hkept, outputOk_kept hkept] using hout, by simp [hlen], by simp [hkept]; omega⟩

/-! ### What holds inside a pass -/

/-- The part of the invariant that does not speak of the bytes that wait. -/
structure Coherent (s : State) : Prop where
  closed : ClosedIsEmpty s
  start : StartIsHeld s
  fault : FaultCloses s
  stride : StrideLegal s
  descFlag : DescFlagOnlyUnderRecheck s
  capacity : WithinCapacity s
  traces : TracesAgree s

theorem Inv.coherent (h : Inv s) : Coherent s :=
  ⟨h.closed, h.start, h.fault, h.stride, h.descFlag, h.capacity, h.traces⟩

/-- What a coherent block lacks of the invariant: its bytes, and its registers before the first item. -/
theorem Coherent.inv (h : Coherent s) (idle : IdleIsFresh s) (synchronizing : SynchronizingIsFresh s)
    (streaming : StreamingIsDrained s) : Inv s :=
  ⟨idle, synchronizing, streaming, h.closed, h.start, h.fault, h.stride, h.descFlag, h.capacity, h.traces⟩

theorem Coherent.inv_of_closed (h : Coherent s) (hp : s.phase = .closed) : Inv s :=
  h.inv (by simp [hp]) (by simp [hp]) (by simp [hp])

theorem Coherent.inv_of_streaming (h : Coherent s) (hp : s.phase = .streaming) (htail : StreamingIsDrained s) : Inv s :=
  h.inv (by simp [hp]) (by simp [hp]) htail

theorem Coherent.no_fault (h : Coherent s) (hopen : s.phase ≠ .closed) : s.fault ≠ .bufferGrowthFailure :=
  fun hf => hopen (h.fault hf)

theorem all_length_le_of_le {α β : Type} {cap : Option Nat} {l : List α} {l' : List β} (hle : l'.length ≤ l.length)
    (h : cap.all (fun c => decide (l.length ≤ c)) = true) : cap.all (fun c => decide (l'.length ≤ c)) = true := by
  cases cap with
  | none => rfl
  | some c => simp at h ⊢; omega

/-- The fault leaves a coherent block, if the traces and the settings were in order. -/
theorem coherent_of_faultTaken (h : FaultTaken t) (hstride : StrideLegal t) (hdesc : DescFlagOnlyUnderRecheck t)
    (htraces : TracesAgree t) : Coherent t where
  closed := fun _ => ⟨h.buf, h.seenStart, h.curFrame⟩
  start := by simp [StartIsHeld, h.seenStart]
  fault := fun _ => h.phase
  stride := hstride
  descFlag := hdesc
  capacity := by
    constructor
    · rw [h.buf]; cases t.params.bufCap <;> simp
    · rw [h.curFrame]; cases t.params.frameCap <;> simp
  traces := htraces

theorem raiseBufferGrowthFailure_coherent (h : Coherent s) : Coherent (raiseBufferGrowthFailure s) :=
  coherent_of_faultTaken (raiseBufferGrowthFailure_faultTaken s) h.stride h.descFlag h.traces

/-! ### Taking a sample -/

theorem afterClosing_tracesAgree (r : RawSample) (h : TracesAgree s) : TracesAgree (afterClosing r s) := by
  cases hc : closesFrame r s with
  | false => rwa [afterClosing_of_not_closes hc]
  | true => rw [afterClosing_of_closes hc]; exact completeFrame_tracesAgree s.curFrame h

theorem takeSample_tracesAgree (r : RawSample) (h : TracesAgree s) : TracesAgree (takeSample r s) := by
  obtain ⟨hout, hrawf, hcorf⟩ := takeSample_traces r s
  rw [TracesAgree, hout, hrawf, hcorf]
  exact afterClosing_tracesAgree r h

/-- What is appended to is the frame in progress, or nothing after a start-flagged sample. -/
theorem frameAtAppend_cases (r : RawSample) (s : State) :
    frameAtAppend r s = s.curFrame ∨ (frameAtAppend r s = [] ∧ r.startFlag = true) := by
  unfold frameAtAppend
  split
  next hc => exact .inr ⟨rfl, hc.1⟩
  next => exact .inl rfl

theorem frame_within_capacity_of_not_full {cap : Option Nat} {u : State} (hcap : u.params.frameCap = cap)
    (h : frameFull u = false) (r : RawSample) :
    cap.all (fun c => decide ((u.curFrame ++ [r]).length ≤ c)) = true := by
  unfold frameFull at h
  cases cap with
  | none => rfl
  | some c => simpa [hcap, Nat.succ_le_iff] using h

theorem takeSample_coherent (r : RawSample) (hopen : s.phase ≠ .closed) (h : Coherent s) :
    Coherent (takeSample r s) := by
  obtain ⟨-, hstride, hparams, -⟩ := takeSample_sameSettings r s
  have stride : StrideLegal (takeSample r s) := by rw [StrideLegal, hstride]; exact h.stride
  have descFlag : DescFlagOnlyUnderRecheck (takeSample r s) := by
    rw [DescFlagOnlyUnderRecheck, hparams, takeSample_descFlag]; exact h.descFlag
  have traces := takeSample_tracesAgree r h.traces
  by_cases hclosed : (takeSample r s).phase = .closed
  · have taken := (takeSample_cases r s).resolve_right fun on => hopen (on.1 ▸ hclosed)
    exact coherent_of_faultTaken taken stride descFlag traces
  obtain ⟨hphase, hfault, hbuf, hframe, hseen⟩ := (takeSample_cases r s).resolve_left (not_faultTaken_of_open hclosed)
  have start : StartIsHeld (takeSample r s) := by
    intro h'
    rw [hframe, List.any_append, List.any_cons, List.any_nil, Bool.or_false]
    rw [hseen, Bool.or_eq_true] at h'
    rcases frameAtAppend_cases r s with same | ⟨-, flag⟩
    · exact Bool.or_eq_true_iff.mpr (h'.imp (fun seen => same ▸ h.start seen) id)
    · simp [flag]
  have room : (takeSample r s).params.frameCap.all
      (fun c => decide ((takeSample r s).curFrame.length ≤ c)) = true := by
    have room_before := frame_within_capacity_of_not_full (cap := s.params.frameCap) (by simp) (takeSample_open_of_room r s hclosed) r
    rw [afterClosing_curFrame_eq_frameAtAppend] at room_before
    rw [hparams, hframe]
    exact room_before
  refine ⟨fun h' => absurd h' hclosed, start, ?fault, stride, descFlag, ⟨?bytes, room⟩, traces⟩
  case fault =>
    intro h'
    exact absurd (hfault.symm.trans h') (h.no_fault hopen)
  case bytes =>
    rw [hparams, hbuf]
    exact all_length_le_of_le (by simp) h.capacity.1

/-! ### The other operations of a pass -/

/-- An operation on an open block that touches the bytes and the descriptor flag alone keeps it coherent, if both stay in
order. -/
theorem Coherent.of_unchanged (h : Coherent s) (hopen : s.phase ≠ .closed) (hopen' : t.phase ≠ .closed)
    (descFlag : DescFlagOnlyUnderRecheck t) (bytes : t.params.bufCap.all (fun cap => decide (t.buf.length ≤ cap)) = true)
    (seen : t.seenStart = s.seenStart := by rfl) (frame : t.curFrame = s.curFrame := by rfl)
    (fault : t.fault = s.fault := by rfl) (stride : t.stride = s.stride := by rfl) (params : t.params = s.params := by rfl)
    (traces : TracesAgree t = TracesAgree s := by rfl) : Coherent t where
  closed := fun hc => absurd hc hopen'
  start := by rw [StartIsHeld, seen, frame]; exact h.start
  fault := fun hf => absurd (fault.symm.trans hf) (h.no_fault hopen)
  stride := by rw [StrideLegal, stride]; exact h.stride
  descFlag := descFlag
  capacity := ⟨bytes, by rw [params, frame]; exact h.capacity.2⟩
  traces := traces ▸ h.traces

theorem windowStep_coherent (w : Window) (hopen : s.phase ≠ .closed) (h : Coherent s) : Coherent (windowStep w s) := by
  cases hv : valid w with
  | true => rw [windowStep_of_valid hv]; exact takeSample_coherent _ hopen h
  | false =>
    rw [windowStep_of_invalid hv]
    exact h.of_unchanged hopen hopen h.descFlag (all_length_le_of_le (by simp [skipByte]) h.capacity.1)

theorem sampleLoop_coherent (hopen : s.phase ≠ .closed) (h : Coherent s) : Coherent (sampleLoop s) := by
  refine sampleLoop_induction_of_open (P := fun s t => Coherent s → Coherent t) (fun _ _ => id) ?_ s hopen h
  exact fun s w hopen _ ih h => ih (windowStep_coherent w hopen h)

theorem checkDescriptor_coherent (hopen : s.phase ≠ .closed) (h : Coherent s) : Coherent (checkDescriptor s) := by
  unfold checkDescriptor
  split
  · refine h.of_unchanged hopen (by simp) ?_ (all_length_le_of_le (by simp [skipDescriptor]) h.capacity.1)
    intro hr
    have once : s.params.descRecheck = false := hr
    simpa [skipDescriptor, once] using h.descFlag once
  · exact h.of_unchanged hopen (by simp) h.descFlag h.capacity.1

theorem parsePass_coherent (hopen : s.phase ≠ .closed) (h : Coherent s) : Coherent (parsePass s) := by
  rcases parsePass_cases s with ⟨-, -, he⟩ | ⟨-, -, he⟩ | ⟨-, he⟩ <;> rw [he]
  · exact h
  · exact sampleLoop_coherent (checkDescriptor_open s) (checkDescriptor_coherent hopen h)
  · exact sampleLoop_coherent hopen h

theorem received_coherent {c : List Byte} (hopen : s.phase ≠ .closed) (hfits : bufOverflows c.length s = false)
    (h : Coherent s) : Coherent (received c s) := by
  refine h.of_unchanged hopen (received_open hopen) h.descFlag ?_
  unfold bufOverflows at hfits
  rw [received_params, received_buf, List.length_append]
  cases hcap : s.params.bufCap with
  | none => rfl
  | some cap => simpa [hcap] using hfits

/-! ### The host's actions -/

/-- A session that has yet to check its head has touched none of its registers (R35). -/
theorem received_fresh_of_synchronizing {c : List Byte} (hinv : Inv s) (hp : (received c s).phase = .synchronizing) :
    s.pc = 0 ∧ s.descFlag = false ∧ s.seenStart = false ∧ s.curFrame = [] := by
  rw [received_phase] at hp
  split at hp
  next hidle => exact (hinv.idle hidle).2
  next => exact (hinv.synchronizing hp).2

theorem deliver_inv (c : List Byte) (hinv : Inv s) (hopen : s.phase ≠ .closed) : Inv (deliver c s) := by
  rcases deliver_cases (c := c) hopen with overflowed | ⟨hfits, passed, -⟩
  · rw [overflowed]
    exact (raiseBufferGrowthFailure_coherent hinv.coherent).inv_of_closed rfl
  have hopen' := received_open (c := c) hopen
  have coherent := parsePass_coherent hopen' (received_coherent hopen hfits hinv.coherent)
  rw [passed]
  rcases parsePass_leaves hopen' with taken | ⟨hphase, htail⟩
  · exact coherent.inv_of_closed taken.phase
  cases hp : (parsePass (received c s)).phase with
  | idle => exact absurd hp (parsePass_not_idle hopen' (received_not_idle c s))
  | closed => exact coherent.inv_of_closed hp
  | streaming => exact coherent.inv_of_streaming hp fun _ => htail
  | synchronizing =>
    rw [hp] at hphase
    split at hphase
    · cases hphase
    next short =>
      have waits : (received c s).phase = .synchronizing := hphase.symm
      have fresh := received_fresh_of_synchronizing hinv waits
      have pending := descPending_of_synchronizing waits fresh.2.1
      have hk : (received c s).buf.length < descLen := Nat.not_le.mp fun hk => short ⟨pending, hk⟩
      rw [parsePass_of_held pending hk] at coherent ⊢
      exact coherent.inv (fun h => nomatch waits.symm.trans h) (fun _ => ⟨Nat.le_of_lt_succ hk, fresh⟩)
        (fun h => nomatch waits.symm.trans h)

theorem clearSession_inv (hinv : Inv s) (hopen : s.phase ≠ .closed) : Inv (clearSession s) where
  idle := fun _ => ⟨rfl, rfl, rfl, rfl, rfl⟩
  synchronizing := by simp
  streaming := by simp
  closed := by simp
  start := by simp
  fault := fun hf => absurd (hinv.fault hf) hopen
  stride := hinv.stride
  descFlag := fun _ => rfl
  capacity := ⟨all_length_le_of_le (Nat.zero_le _) hinv.capacity.1, all_length_le_of_le (Nat.zero_le _) hinv.capacity.2⟩
  traces := hinv.traces

theorem closeBlock_inv (hinv : Inv s) : Inv (closeBlock s) where
  idle := by simp
  synchronizing := by simp
  streaming := by simp
  closed := fun _ => ⟨rfl, rfl, rfl⟩
  start := by simp
  fault := fun _ => rfl
  stride := hinv.stride
  descFlag := hinv.descFlag
  capacity := ⟨all_length_le_of_le (Nat.zero_le _) hinv.capacity.1, all_length_le_of_le (Nat.zero_le _) hinv.capacity.2⟩
  traces := hinv.traces

/-- Of the settings the invariant reads only that the stride is legal. -/
theorem effect_inv (a : HostAction) (hinv : Inv s) : Inv (a.effect s) := by
  rcases effect_cases a s with he | ⟨hopen, ⟨c, he⟩ | he | he | ⟨m, st, -, hst, he⟩⟩ <;> rw [he]
  · exact hinv
  · exact deliver_inv c hinv hopen
  · exact clearSession_inv hinv hopen
  · exact closeBlock_inv hinv
  · exact { hinv with stride := hst }

/-- The invariant does not read what the host does next. -/
theorem Inv.with_pending (hinv : Inv s) (rest : List HostAction) : Inv { s with pending := rest } :=
  { hinv with }

/-- Between two steps fewer bytes wait than an item needs (R114, R131). -/
theorem Inv.no_item (hinv : Inv s) : fetchItem s = none := by
  by_cases hrun : Running s
  · have htail := hinv.short_tail hrun
    cases hd : descPending s with
    | true => exact fetchItem_of_held hd (Nat.lt_succ_of_le (by simpa [hd] using htail))
    | false =>
      have no_window : windowAt s.buf = none :=
        windowAt_eq_none.mpr (Nat.lt_succ_of_le (by simpa [hd] using htail))
      rw [fetchItem_of_checked hrun hd, no_window]
      rfl
  · exact fetchItem_of_not_running hrun

end Sys2Proof.Machine

open Sys2Proof Sys2Proof.Machine in
/-- Settles O13: with no item at the cursor a step is a host action, and each of them keeps the invariant. -/
theorem everyStepKeepsTheInvariant : Obligations.EveryStepKeepsTheInvariant := by
  unfold Obligations.EveryStepKeepsTheInvariant
  intro s t hinv h
  cases hp : s.pending with
  | nil =>
    cases (step_of_nothing hinv.no_item hp).symm.trans h
    exact hinv
  | cons a rest =>
    cases ((step_of_action hinv.no_item hp).trans (exec_instr a _)).symm.trans h
    exact effect_inv a (hinv.with_pending rest)

open Sys2Proof.Machine in
/-- Settles O12: each part of the invariant, evaluated at the one state. -/
theorem powerOnMeetsTheInvariant : Obligations.PowerOnMeetsTheInvariant := by
  unfold Obligations.PowerOnMeetsTheInvariant
  constructor <;> decide

open Sys2Proof.Machine in
/-- Settles O11: the fields of `State.reset`. -/
theorem powerOnState : Obligations.PowerOnState := by
  unfold Obligations.PowerOnState
  decide

end

