-- ==== Sys2Proof/Proofs/WrapAngle.lean ====
section
/-!
PROOFS. `wrap360` (44_frame_corrector.md R171, R182): in exact arithmetic it is 360 times the fractional part of the turns,
and after any rounding it is still the remainder of a number that is not negative.
-/

namespace Sys2Proof.Machine

/-! ### `fmod(x, 360)` -/

theorem mod360_of_nonneg {x : Rat} (h : 0 ≤ x) : mod360 x = 360 * Int.fract (x / 360) :=
  calc mod360 x
      = x - 360 * (⌊x / 360⌋ : Rat) := if_pos h
    _ = 360 * Int.fract (x / 360) := by rw [Int.fract]; ring

theorem mod360_of_neg {x : Rat} (h : x < 0) : mod360 x = -(360 * Int.fract (-x / 360)) :=
  calc mod360 x
      = x + 360 * (⌊-x / 360⌋ : Rat) := if_neg h.not_ge
    _ = -(360 * Int.fract (-x / 360)) := by rw [Int.fract]; ring

theorem turn_mul_fract_bounds (y : Rat) : 0 ≤ 360 * Int.fract y ∧ 360 * Int.fract y < 360 := by
  have := Int.fract_nonneg y
  have := Int.fract_lt_one y
  constructor <;> linarith

theorem mod360_bounds_of_nonneg {x : Rat} (h : 0 ≤ x) : 0 ≤ mod360 x ∧ mod360 x < 360 :=
  mod360_of_nonneg h ▸ turn_mul_fract_bounds (x / 360)

theorem neg_turn_lt_mod360 (x : Rat) : -360 < mod360 x := by
  rcases le_or_gt 0 x with h | h
  · linarith [(mod360_bounds_of_nonneg h).1]
  · rw [mod360_of_neg h]
    linarith [(turn_mul_fract_bounds (-x / 360)).2]

theorem mod360_eq_add_turns (x : Rat) : ∃ m : Int, mod360 x = x + 360 * (m : Rat) := by
  rcases le_or_gt 0 x with h | h
  · exact ⟨-⌊x / 360⌋, by rw [mod360_of_nonneg h, Int.fract, Int.cast_neg]; ring⟩
  · exact ⟨⌊-x / 360⌋, by rw [mod360_of_neg h, Int.fract]; ring⟩

/-! ### `wrap360` in exact arithmetic -/

theorem wrap360_rational (x : Rat) : wrap360 .rational x = 360 * Int.fract (x / 360) := by
  obtain ⟨m, hm⟩ := mod360_eq_add_turns x
  have shifted : (mod360 x + 360) / 360 = x / 360 + ((m + 1 : Int) : Rat) := by
    rw [hm]
    push_cast
    ring
  have nonneg : 0 ≤ mod360 x + 360 := by linarith [neg_turn_lt_mod360 x]
  rw [wrap360, fl_rational, mod360_of_nonneg nonneg, shifted, Int.fract_add_intCast]

/-- Angles that differ by whole turns wrap to the same angle. -/
theorem wrap360_rational_congr {x y : Rat} (h : ∃ m : Int, x - y = 360 * (m : Rat)) :
    wrap360 .rational x = wrap360 .rational y := by
  obtain ⟨m, hm⟩ := h
  have turns : x / 360 = y / 360 + (m : Rat) := by
    rw [show x = y + 360 * (m : Rat) by linarith]
    ring
  rw [wrap360_rational, wrap360_rational, turns, Int.fract_add_intCast]

theorem wrap360_rational_of_mem_turn {y : Rat} (h : 0 ≤ y) (hlt : y < 360) : wrap360 .rational y = y := by
  have within : Int.fract (y / 360) = y / 360 := Int.fract_eq_self.mpr ⟨by positivity, by linarith⟩
  rw [wrap360_rational, within]
  ring

/-- The angle within the turn is the only one that differs from `x` by whole turns. -/
theorem wrap360_rational_eq {x y : Rat} (h : 0 ≤ y) (hlt : y < 360) (hturns : ∃ m : Int, x - y = 360 * (m : Rat)) :
    wrap360 .rational x = y := by
  rw [wrap360_rational_congr hturns, wrap360_rational_of_mem_turn h hlt]

theorem sub_wrap360_rational (x : Rat) : ∃ m : Int, x - wrap360 .rational x = 360 * (m : Rat) :=
  ⟨⌊x / 360⌋, by rw [wrap360_rational, Int.fract]; ring⟩

/-- An inner wrap is absorbed (R171). -/
theorem wrap360_rational_wrap_add (x y : Rat) :
    wrap360 .rational (wrap360 .rational x + y) = wrap360 .rational (x + y) := by
  obtain ⟨m, hm⟩ := sub_wrap360_rational x
  exact (wrap360_rational_congr ⟨m, by linarith⟩).symm

/-! ### `wrap360` after a rounding -/

theorem nearestEven_nonneg {y : Rat} (h : 0 ≤ y) : 0 ≤ nearestEven y := by
  have floor_nonneg : 0 ≤ y.floor := Int.floor_nonneg.mpr h
  simp only [nearestEven]
  split_ifs <;> omega

theorem pow2_pos (e : Int) : 0 < pow2 e := by
  cases e with
  | ofNat n => simp only [pow2]; positivity
  | negSucc n => simp only [pow2]; positivity

theorem roundBinary_nonneg (p : Nat) (emin : Int) {x : Rat} (h : 0 ≤ x) : 0 ≤ roundBinary p emin x := by
  unfold roundBinary
  split
  · exact le_rfl
  · have mantissa := nearestEven_nonneg (div_nonneg h (pow2_pos (max (binExponent x - ((p : Int) - 1)) emin)).le)
    exact mul_nonneg (by exact_mod_cast mantissa) (pow2_pos _).le

theorem fl_nonneg (fmt : NumFormat) {x : Rat} (h : 0 ≤ x) : 0 ≤ fl fmt x := by
  cases fmt with
  | rational => exact h
  | binary64 => exact roundBinary_nonneg _ _ h
  | binary32 => exact roundBinary_nonneg _ _ h

theorem wrap360_bounds (fmt : NumFormat) (x : Rat) : 0 ≤ wrap360 fmt x ∧ wrap360 fmt x < 360 :=
  mod360_bounds_of_nonneg (fl_nonneg fmt (by linarith [neg_turn_lt_mod360 x]))

end Sys2Proof.Machine

open Sys2Proof.Machine in
/-- Settles O46: the wrapped angle is `x` less whole turns, and an angle within the turn is its own wrap. -/
theorem wrapIsTheRemainderInATurn : Obligations.WrapIsTheRemainderInATurn := by
  unfold Obligations.WrapIsTheRemainderInATurn
  refine ⟨fun x => ⟨(wrap360_bounds _ x).1, (wrap360_bounds _ x).2, sub_wrap360_rational x⟩,
    fun x y h hlt hturns => wrap360_rational_eq h hlt hturns, wrap360_rational_wrap_add, ?_, ?_, ?_⟩
  · exact wrap360_rational_eq (by norm_num) (by norm_num) ⟨-1, by norm_num⟩
  · exact wrap360_rational_eq (by norm_num) (by norm_num) ⟨1, by norm_num⟩
  · exact wrap360_rational_eq (by norm_num) (by norm_num) ⟨1, by norm_num⟩

open Sys2Proof.Machine in
/-- Settles O47: rounding keeps a number that is not negative so. -/
theorem wrapStaysInATurnWhenRounded : Obligations.WrapStaysInATurnWhenRounded := by
  unfold Obligations.WrapStaysInATurnWhenRounded
  exact wrap360_bounds

end

