-- ==== Sys2Proof/Proofs/CorrectorRetune.lean ====
section
/-!
PROOFS. The three rewriting steps of the corrector, sample by sample (44_frame_corrector.md R174 to R177, R180): with the
first and the last return known, what stands at each position is one of four values. That samples with a return stay and
that rewritten angles lie in the turn (R179), that a full frame is only sorted (R183), and the closed forms (R180) are read
off that.
-/

namespace Sys2Proof.Machine

variable {C : List CorSample} {a b c d : CorSample} {h t i : Nat} {p : Params}

/-! ### The first and the last return -/

/-- `a` stands at `h`, the least index with a return (R174). -/
structure LeadsWith (C : List CorSample) (h : Nat) (a : CorSample) : Prop where
  at_index : C[h]? = some a
  return_at : hasReturn a = true
  misses : ∀ i d, i < h → C[i]? = some d → hasReturn d = false

/-- `b` stands at `t`, the greatest index with a return (R176). -/
structure TrailsWith (C : List CorSample) (t : Nat) (b : CorSample) : Prop where
  at_index : C[t]? = some b
  return_at : hasReturn b = true
  misses : ∀ i d, t < i → C[i]? = some d → hasReturn d = false

theorem LeadsWith.firstReturn_eq (hl : LeadsWith C h a) : firstReturn C = h := by
  obtain ⟨hlen, hget⟩ := List.getElem?_eq_some_iff.mp hl.at_index
  refine (List.findIdx_eq hlen).mpr ⟨hget ▸ hl.return_at, fun j hj => ?_⟩
  exact hl.misses j _ hj (List.getElem?_eq_getElem (hj.trans hlen))

theorem exists_leadsWith (hr : ∃ c ∈ C, hasReturn c = true) : ∃ h a, LeadsWith C h a := by
  have hlen : firstReturn C < C.length := List.findIdx_lt_length_of_exists hr
  refine ⟨firstReturn C, C[firstReturn C], List.getElem?_eq_getElem hlen, List.findIdx_getElem, ?_⟩
  intro i d hi hd
  obtain ⟨hlt, rfl⟩ := List.getElem?_eq_some_iff.mp hd
  exact List.not_of_lt_findIdx hi

/-- Seen from the other end the last return is the first one. -/
theorem trailsWith_iff_reverse (ht : t < C.length) :
    TrailsWith C t b ↔ LeadsWith C.reverse (C.length - 1 - t) b := by
  have mirrored {j : Nat} (hj : j < C.length) : C.reverse[j]? = C[C.length - 1 - j]? := List.getElem?_reverse hj
  constructor
  · intro hb
    refine ⟨?_, hb.return_at, fun i d hi hd => ?_⟩
    · rw [mirrored (by omega), ← hb.at_index]
      congr 1
      omega
    · exact hb.misses (C.length - 1 - i) d (by omega) (by rwa [← mirrored (by omega)])
  · intro hb
    refine ⟨?_, hb.return_at, fun i d hi hd => ?_⟩
    · rw [← hb.at_index, mirrored (by omega)]
      congr 1
      omega
    · obtain ⟨hlt, -⟩ := List.getElem?_eq_some_iff.mp hd
      refine hb.misses (C.length - 1 - i) d (by omega) ?_
      rw [mirrored (by omega), ← hd]
      congr 1
      omega

theorem TrailsWith.lt_length (hb : TrailsWith C t b) : t < C.length :=
  (List.getElem?_eq_some_iff.mp hb.at_index).1

theorem TrailsWith.lastReturn_eq (hb : TrailsWith C t b) : lastReturn C = t := by
  have first : C.reverse.findIdx hasReturn = C.length - 1 - t :=
    ((trailsWith_iff_reverse hb.lt_length).mp hb).firstReturn_eq
  have := hb.lt_length
  rw [lastReturn, first]
  omega

theorem exists_trailsWith (hr : ∃ c ∈ C, hasReturn c = true) : ∃ t b, TrailsWith C t b := by
  obtain ⟨h, b, hb⟩ := exists_leadsWith (C := C.reverse) (by simpa using hr)
  have hlen : h < C.length := by simpa using (List.getElem?_eq_some_iff.mp hb.at_index).1
  refine ⟨C.length - 1 - h, b, (trailsWith_iff_reverse (by omega)).mpr ?_⟩
  rwa [show C.length - 1 - (C.length - 1 - h) = h by omega]

theorem LeadsWith.le_of_return (hl : LeadsWith C h a) (hd : C[i]? = some d) (hr : hasReturn d = true) : h ≤ i :=
  Nat.not_lt.mp fun hi => by simp [hl.misses i d hi hd] at hr

theorem TrailsWith.le_of_return (ht : TrailsWith C t b) (hd : C[i]? = some d) (hr : hasReturn d = true) : i ≤ t :=
  Nat.not_lt.mp fun hi => by simp [ht.misses i d hi hd] at hr

theorem LeadsWith.ne_of_miss (hl : LeadsWith C h a) (hd : C[i]? = some d) (hm : hasReturn d = false) : i ≠ h := by
  rintro rfl
  cases hl.at_index.symm.trans hd
  simp [hl.return_at] at hm

theorem TrailsWith.ne_of_miss (ht : TrailsWith C t b) (hd : C[i]? = some d) (hm : hasReturn d = false) : i ≠ t := by
  rintro rfl
  cases ht.at_index.symm.trans hd
  simp [ht.return_at] at hm

theorem LeadsWith.le_trailsWith (hl : LeadsWith C h a) (ht : TrailsWith C t b) : h ≤ t :=
  hl.le_of_return ht.at_index ht.return_at

/-! ### Only angles are rewritten -/

/-- A rewriting of the angles, position by position: `g i d` is the new angle of the sample `d` at `i`. -/
def Rewrites (C D : List CorSample) (g : Nat → CorSample → Rat) : Prop :=
  ∀ i : Nat, D[i]? = C[i]?.map fun d => { d with ang := g i d }

theorem hasReturn_withAng (d : CorSample) (x : Rat) : hasReturn { d with ang := x } = hasReturn d := rfl

variable {D : List CorSample} {g : Nat → CorSample → Rat}

theorem Rewrites.leadsWith (hg : Rewrites C D g) (hl : LeadsWith C h a) :
    LeadsWith D h { a with ang := g h a } := by
  refine ⟨by rw [hg, hl.at_index]; rfl, hl.return_at, fun i d hi hd => ?_⟩
  rw [hg] at hd
  obtain ⟨d', hd', rfl⟩ := Option.map_eq_some_iff.mp hd
  exact hl.misses i d' hi hd'

theorem Rewrites.trailsWith (hg : Rewrites C D g) (ht : TrailsWith C t b) :
    TrailsWith D t { b with ang := g t b } := by
  refine ⟨by rw [hg, ht.at_index]; rfl, ht.return_at, fun i d hi hd => ?_⟩
  rw [hg] at hd
  obtain ⟨d', hd', rfl⟩ := Option.map_eq_some_iff.mp hd
  exact ht.misses i d' hi hd'

/-! ### The walk to the first return -/

theorem tuneLeading_of_return (f : Rat → Rat) (hr : hasReturn c = true) (cs : List CorSample) :
    tuneLeading f (c :: cs) = c :: cs := if_pos hr

theorem tuneLeading_of_miss {f : Rat → Rat} {cs ds : List CorSample} (hm : hasReturn c = false)
    (hd : tuneLeading f cs = d :: ds) : tuneLeading f (c :: cs) = { c with ang := f d.ang } :: d :: ds := by
  simp [tuneLeading, hm, hd]

/-- A sample `k` places before the first return gets the `k`-th iterate of the walk's step. -/
theorem tuneLeading_rewrites (f : Rat → Rat) (hl : LeadsWith C h a) :
    Rewrites C (tuneLeading f C) fun i d => if i < h then f^[h - i] a.ang else d.ang := by
  induction C generalizing h with
  | nil => simpa using hl.at_index
  | cons c cs ih =>
    cases h with
    | zero =>
      have hr : hasReturn c = true := by
        cases hl.at_index
        exact hl.return_at
      intro i
      simp [tuneLeading_of_return f hr]
    | succ h =>
      have hm : hasReturn c = false := hl.misses 0 c h.succ_pos rfl
      have walked := ih (h := h) ⟨hl.at_index, hl.return_at, fun i d hi hd => hl.misses (i + 1) d (by omega) hd⟩
      cases hd : tuneLeading f cs with
      | nil =>
        have at_return := walked h
        rw [hd, show cs[h]? = some a from hl.at_index] at at_return
        cases at_return
      | cons d ds =>
        have next_angle : d.ang = f^[h] a.ang := by
          have first := walked 0
          rw [hd] at first
          obtain ⟨e, he, rfl⟩ := Option.map_eq_some_iff.mp first.symm
          cases h with
          | zero => cases he.symm.trans hl.at_index; rfl
          | succ h => rfl
        intro i
        rw [tuneLeading_of_miss hm hd]
        cases i with
        | zero => simp [next_angle, ← Function.iterate_succ_apply' f]
        | succ i => simpa [hd] using walked i

/-- One place back towards the head (R175). -/
def stepDown (fmt : NumFormat) (inc x : Rat) : Rat := wrap360 fmt (fl fmt (x - inc))

/-- One place on towards the tail (R176). -/
def stepUp (fmt : NumFormat) (inc x : Rat) : Rat := wrap360 fmt (fl fmt (x + inc))

theorem headTune_rewrites (fmt : NumFormat) (inc : Rat) (hl : LeadsWith C h a) :
    Rewrites C (headTune fmt inc C) fun i d =>
      if i < h then (stepDown fmt inc)^[h - i] a.ang else d.ang :=
  tuneLeading_rewrites _ hl

/-- The tail tune is the same walk seen from the other end (R176). -/
theorem tailTune_rewrites (fmt : NumFormat) (inc : Rat) (ht : TrailsWith C t b) :
    Rewrites C (tailTune fmt inc C) fun i d =>
      if t < i then (stepUp fmt inc)^[i - t] b.ang else d.ang := by
  intro i
  have hlen := ht.lt_length
  rcases Nat.lt_or_ge i C.length with hi | hi
  · have walked := tuneLeading_rewrites (stepUp fmt inc)
      ((trailsWith_iff_reverse hlen).mp ht) (C.length - 1 - i)
    have places : C.length - 1 - t - (C.length - 1 - i) = i - t := by omega
    have nearer : C.length - 1 - i < C.length - 1 - t ↔ t < i := by omega
    have same_place : C.length - 1 - (C.length - 1 - i) = i := by omega
    rw [List.getElem?_reverse (by omega), same_place] at walked
    simp only [places, nearer] at walked
    rw [tailTune, List.getElem?_reverse (by simpa using hi), tuneLeading_length, List.length_reverse]
    exact walked
  · simp [hi]

/-- The interior fill, whose first and last return are those of the frame it fills (R177). -/
theorem interiorFill_rewrites (fmt : NumFormat) (scope : FillScope) (inc : Rat) (hc : C[0]? = some c)
    (hl : LeadsWith C h a) (ht : TrailsWith C t b) :
    Rewrites C (interiorFill fmt scope inc C) fun i d =>
      if hasReturn d = false ∧ fillReaches scope h t i = true then
        wrap360 fmt (fl fmt (c.ang + fl fmt ((i : Rat) * inc)))
      else d.ang := by
  intro i
  match C, hc with
  | c' :: cs, hc =>
    cases hc
    rw [interiorFill, hl.firstReturn_eq, ht.lastReturn_eq, List.getElem?_mapIdx]
    congr 1
    funext d
    simp only [Bool.and_eq_true, Bool.not_eq_true']
    split <;> rfl

/-! ### The three steps together -/

/-- The angle with which the sample `d` at position `i` leaves the rewriting of a frame of `n` samples, with the first
return `a` at `h` and the last, `b`, at `t`. -/
def retunedAng (p : Params) (n h t : Nat) (a b : CorSample) (i : Nat) (d : CorSample) : Rat :=
  let inc := increment p.num n
  if hasReturn d = false ∧ fillReaches p.fillScope h t i = true then
    wrap360 p.num (fl p.num ((stepDown p.num inc)^[h] a.ang + fl p.num ((i : Rat) * inc)))
  else if i < h then (stepDown p.num inc)^[h - i] a.ang
  else if t < i then (stepUp p.num inc)^[i - t] b.ang
  else d.ang

theorem retune_rewrites (p : Params) (hl : LeadsWith C h a) (ht : TrailsWith C t b) :
    Rewrites C (retune p C) (retunedAng p C.length h t a b) := by
  have not_before : ¬ t < h := Nat.not_lt.mpr (hl.le_trailsWith ht)
  have head := headTune_rewrites p.num (increment p.num C.length) hl
  have head_leads : LeadsWith (headTune p.num (increment p.num C.length) C) h a := by
    simpa using head.leadsWith hl
  have head_trails : TrailsWith (headTune p.num (increment p.num C.length) C) t b := by
    simpa [not_before] using head.trailsWith ht
  have tail := tailTune_rewrites p.num (increment p.num C.length) head_trails
  obtain ⟨c0, hc0⟩ : ∃ c0, C[0]? = some c0 := ⟨_, List.getElem?_eq_getElem (Nat.zero_lt_of_lt ht.lt_length)⟩
  have first_ang : (if 0 < h then (stepDown p.num (increment p.num C.length))^[h] a.ang
      else c0.ang) = (stepDown p.num (increment p.num C.length))^[h] a.ang := by
    cases h with
    | zero => cases hc0.symm.trans hl.at_index; rfl
    | succ h => rfl
  have fill := interiorFill_rewrites p.num p.fillScope (increment p.num C.length)
    (by rw [tail, head, hc0]; rfl) (tail.leadsWith head_leads) (tail.trailsWith head_trails)
  intro i
  rw [retune, fill, tail, head, Option.map_map, Option.map_map]
  congr 1
  funext d
  simp only [Function.comp, hasReturn_withAng, Nat.not_lt_zero, if_false, Nat.sub_zero, first_ang, retunedAng]
  by_cases hfill : hasReturn d = false ∧ fillReaches p.fillScope h t i = true
  · rw [if_pos hfill, if_pos hfill]
  · rw [if_neg hfill, if_neg hfill]
    by_cases hhead : i < h
    · rw [if_neg (by omega), if_pos hhead, if_pos hhead]
    · rw [if_neg hhead, if_neg hhead]

/-! ### Samples with a return stay, the others come to lie in the turn -/

theorem retunedAng_of_return (n : Nat) (hl : LeadsWith C h a) (ht : TrailsWith C t b) (hd : C[i]? = some d)
    (hr : hasReturn d = true) : retunedAng p n h t a b i d = d.ang := by
  have not_before : ¬ i < h := Nat.not_lt.mpr (hl.le_of_return hd hr)
  have not_after : ¬ t < i := Nat.not_lt.mpr (ht.le_of_return hd hr)
  simp [retunedAng, hr, not_before, not_after]

/-- A wrap was the last operation of a walk. -/
theorem iterate_bounds {f : Rat → Rat} (hf : ∀ x, 0 ≤ f x ∧ f x < 360) {k : Nat} (hk : 0 < k) (x : Rat) :
    0 ≤ f^[k] x ∧ f^[k] x < 360 := by
  cases k with
  | zero => cases hk
  | succ k => rw [Function.iterate_succ_apply']; exact hf _

/-- Between the first and the last return every miss is in reach of the fill, in both readings (R177). -/
theorem fillReaches_of_between (scope : FillScope) (hlo : h < i) (hhi : i < t) : fillReaches scope h t i = true := by
  cases scope with
  | interior => simp [fillReaches, hlo, hhi]
  | allZero => simp [fillReaches]; omega

theorem retunedAng_bounds_of_miss (n : Nat) (hl : LeadsWith C h a) (ht : TrailsWith C t b) (hd : C[i]? = some d)
    (hm : hasReturn d = false) : 0 ≤ retunedAng p n h t a b i d ∧ retunedAng p n h t a b i d < 360 := by
  have hih := hl.ne_of_miss hd hm
  have hit := ht.ne_of_miss hd hm
  simp only [retunedAng, hm, true_and]
  split
  · exact wrap360_bounds _ _
  next not_filled =>
    split
    next hhead => exact iterate_bounds (fun x => wrap360_bounds _ _) (Nat.sub_pos_of_lt hhead) _
    next hhead =>
      split
      next htail => exact iterate_bounds (fun x => wrap360_bounds _ _) (Nat.sub_pos_of_lt htail) _
      next htail => exact absurd (fillReaches_of_between p.fillScope (by omega) (by omega)) not_filled

/-- What a sample becomes (R179): only its angle can change, and changes only in a miss, to an angle within the turn. -/
structure Retuned (c d : CorSample) : Prop where
  distRaw : d.distRaw = c.distRaw
  quality : d.quality = c.quality
  startFlag : d.startFlag = c.startFlag
  of_return : hasReturn c = true → d = c
  of_miss : hasReturn c = false → 0 ≤ d.ang ∧ d.ang < 360

theorem retune_getElem? (p : Params) (hr : ∃ c ∈ C, hasReturn c = true) (hc : C[i]? = some c) :
    ∃ d, (retune p C)[i]? = some d ∧ Retuned c d := by
  obtain ⟨h, a, hl⟩ := exists_leadsWith hr
  obtain ⟨t, b, ht⟩ := exists_trailsWith hr
  have at_index := retune_rewrites p hl ht i
  rw [hc] at at_index
  refine ⟨_, at_index, rfl, rfl, rfl, fun hreturn => ?_, retunedAng_bounds_of_miss C.length hl ht hc⟩
  simp only [retunedAng_of_return C.length hl ht hc hreturn]

theorem retune_forall₂ (p : Params) (hr : ∃ c ∈ C, hasReturn c = true) : List.Forall₂ Retuned C (retune p C) := by
  refine List.forall₂_iff_get.mpr ⟨(retune_length p C).symm, fun i hi hi' => ?_⟩
  obtain ⟨d, hd, retuned⟩ := retune_getElem? p hr (List.getElem?_eq_getElem hi)
  obtain ⟨hlt, rfl⟩ := List.getElem?_eq_some_iff.mp hd
  exact retuned

/-- A frame in which every sample has a return is not rewritten (R183). -/
theorem retune_of_full (p : Params) (hfull : ∀ c ∈ C, hasReturn c = true) : retune p C = C := by
  refine List.ext_getElem? fun i => ?_
  cases hc : C[i]? with
  | none => simpa using hc
  | some c =>
    have hreturn := hfull c (List.mem_of_getElem? hc)
    obtain ⟨d, hd, retuned⟩ := retune_getElem? p ⟨c, List.mem_of_getElem? hc, hreturn⟩ hc
    rw [hd, retuned.of_return hreturn]

/-! ### The frames of the assembler -/

theorem hasReturn_toCor_iff (r : RawSample) : hasReturn (toCor r) = true ↔ r.distRaw ≠ 0 := by
  simp [hasReturn, toCor]

theorem hasReturn_toCor_eq_false {r : RawSample} (h : r.distRaw = 0) : hasReturn (toCor r) = false := by
  simp [hasReturn, toCor, h]

theorem exists_hasReturn_map_toCor {F : List RawSample} (hr : ∃ r ∈ F, r.distRaw ≠ 0) :
    ∃ c ∈ F.map toCor, hasReturn c = true := by
  obtain ⟨r, hF, hne⟩ := hr
  exact ⟨toCor r, List.mem_map_of_mem hF, (hasReturn_toCor_iff r).mpr hne⟩

theorem correct_of_full (p : Params) {F : List RawSample} (hfull : ∀ r ∈ F, r.distRaw ≠ 0) :
    correct p F = sortByAng (F.map toCor) := by
  cases F with
  | nil => rfl
  | cons r F =>
    rw [correct_of_return p ⟨r, List.mem_cons_self, hfull r List.mem_cons_self⟩,
      retune_of_full p (List.forall_mem_map.mpr fun r hF => (hasReturn_toCor_iff r).mpr (hfull r hF))]

theorem angleDeg_le_angleDeg {x y : BitVec 15} (hle : x.toNat ≤ y.toNat) : angleDeg x ≤ angleDeg y :=
  div_le_div_of_nonneg_right (by exact_mod_cast hle) (by decide)

end Sys2Proof.Machine

open Sys2Proof Sys2Proof.Machine in
/-- Settles O51: a degenerate frame is itself; any other is the sort of its rewriting, which is `Retuned` at each
position. -/
theorem correctorPreservesSamples : Obligations.CorrectorPreservesSamples := by
  unfold Obligations.CorrectorPreservesSamples
  intro p F
  by_cases hr : ∃ r ∈ F, r.distRaw ≠ 0
  · have hreturn := exists_hasReturn_map_toCor hr
    refine ⟨retune p (F.map toCor), correct_of_return p hr ▸ sortByAng_perm _, by simp, fun i r c hF hc => ?_⟩
    have at_index : (F.map toCor)[i]? = some (toCor r) := by simp [hF]
    obtain ⟨d, hd, retuned⟩ := retune_getElem? p hreturn at_index
    cases hd.symm.trans hc
    exact ⟨retuned.distRaw, retuned.quality, retuned.startFlag,
      fun hne => by rw [retuned.of_return ((hasReturn_toCor_iff r).mpr hne)]; rfl,
      fun hz _ => retuned.of_miss (hasReturn_toCor_eq_false hz)⟩
  · have hmiss : ∀ r ∈ F, r.distRaw = 0 := by simpa using hr
    refine ⟨F.map toCor, correct_of_no_return p hmiss ▸ .refl _, by simp, fun i r c hF hc => ?_⟩
    rw [List.getElem?_map, hF] at hc
    cases hc
    exact ⟨rfl, rfl, rfl, fun _ => rfl, fun _ hr' => absurd hr' hr⟩

open Sys2Proof Sys2Proof.Machine in
/-- Settles O52: a full frame is not rewritten, so only the sort is left, which returns an ascending list. -/
theorem ascendIsIdempotentOnFullFrames : Obligations.AscendIsIdempotentOnFullFrames := by
  unfold Obligations.AscendIsIdempotentOnFullFrames
  intro p F hfull
  have sorted_only : correct p F = sortByAng (F.map toCor) := correct_of_full p hfull
  refine ⟨sorted_only, fun hasc => ?_⟩
  have ascending : (F.map toCor).Pairwise fun a b => a.ang ≤ b.ang :=
    List.pairwise_map.mpr (hasc.imp fun hle => angleDeg_le_angleDeg hle)
  rw [sorted_only, sortByAng, ascending.insertionSort_eq]

end

