-- ==== Sys2Proof/Proofs/ClosedForms.lean ====
section
/-!
PROOFS. The rewritten angles in exact arithmetic (44_frame_corrector.md R180, R181): a walk of `k` steps is one wrap of
the whole way, and the corrector in integer units makes the same steps.
-/

namespace Sys2Proof.Machine

variable {h t i n : Nat} {a b d : CorSample} {C : List CorSample} {p : Params}

/-! ### Walks -/

theorem stepDown_iterate_turns (inc x : Rat) (k : Nat) :
    ∃ m : Int, (stepDown .rational inc)^[k] x - (x - k * inc) = 360 * (m : Rat) := by
  induction k with
  | zero => exact ⟨0, by simp⟩
  | succ k ih =>
    obtain ⟨m, hm⟩ := ih
    obtain ⟨m', hm'⟩ := sub_wrap360_rational ((stepDown .rational inc)^[k] x - inc)
    refine ⟨m - m', ?_⟩
    rw [Function.iterate_succ_apply', stepDown, fl_rational]
    push_cast
    linarith

/-- A walk of at least one step is one wrap of the whole way. -/
theorem stepDown_iterate (inc x : Rat) {k : Nat} (hk : 0 < k) :
    (stepDown .rational inc)^[k] x = wrap360 .rational (x - k * inc) := by
  cases k with
  | zero => cases hk
  | succ k =>
    obtain ⟨m, hm⟩ := stepDown_iterate_turns inc x k
    rw [Function.iterate_succ_apply', stepDown, fl_rational]
    refine wrap360_rational_congr ⟨m, ?_⟩
    push_cast
    linarith

theorem stepUp_eq_stepDown_neg (inc : Rat) : stepUp .rational inc = stepDown .rational (-inc) := by
  funext x
  rw [stepUp, stepDown, sub_neg_eq_add]

theorem stepUp_iterate (inc x : Rat) {k : Nat} (hk : 0 < k) :
    (stepUp .rational inc)^[k] x = wrap360 .rational (x + k * inc) := by
  rw [stepUp_eq_stepDown_neg, stepDown_iterate _ _ hk, mul_neg, sub_neg_eq_add]

/-- The fill counts from the first sample, to which the head walked down from the first return (R177). -/
theorem wrap360_fill (inc x : Rat) (h i : Nat) :
    wrap360 .rational ((stepDown .rational inc)^[h] x + i * inc) = wrap360 .rational (x + ((i : Rat) - h) * inc) := by
  obtain ⟨m, hm⟩ := stepDown_iterate_turns inc x h
  exact wrap360_rational_congr ⟨m, by linarith⟩

/-! ### The closed forms of a miss -/

theorem retunedAng_of_filled (hnum : p.num = .rational) (hm : hasReturn d = false)
    (hfill : fillReaches p.fillScope h t i = true) :
    retunedAng p n h t a b i d = wrap360 .rational (a.ang + ((i : Rat) - h) * (360 / n)) := by
  simp only [retunedAng, hm, hfill, and_self, if_true, hnum, increment, fl_rational]
  exact wrap360_fill _ _ h i

theorem retunedAng_of_head (hnum : p.num = .rational) (hm : hasReturn d = false) (hi : i < h) :
    retunedAng p n h t a b i d = wrap360 .rational (a.ang - ((h : Rat) - i) * (360 / n)) := by
  cases hfill : fillReaches p.fillScope h t i with
  | true =>
    rw [retunedAng_of_filled hnum hm hfill]
    congr 1
    ring
  | false =>
    simp only [retunedAng, hm, hfill, Bool.false_eq_true, and_false, if_false, hi, if_true, hnum, increment, fl_rational]
    rw [stepDown_iterate _ _ (Nat.sub_pos_of_lt hi), Nat.cast_sub hi.le]

theorem retunedAng_of_tail (hnum : p.num = .rational) (hscope : p.fillScope = .interior) (hht : h ≤ t) (hi : t < i) :
    retunedAng p n h t a b i d = wrap360 .rational (b.ang + ((i : Rat) - t) * (360 / n)) := by
  have not_filled : fillReaches p.fillScope h t i = false := by simp [hscope, fillReaches]; omega
  have not_head : ¬ i < h := by omega
  simp only [retunedAng, not_filled, Bool.false_eq_true, and_false, if_false, not_head, hi, if_true, hnum, increment,
    fl_rational]
  rw [stepUp_iterate _ _ (Nat.sub_pos_of_lt hi), Nat.cast_sub hi.le]

/-- Behind the first return every miss is in reach of the fill, but for the tail under `FILL_SCOPE = interior`. -/
theorem fillReaches_of_not_tail {scope : FillScope} (hlo : h < i) (hne : i ≠ t) (hscope : ¬ (t < i ∧ scope = .interior)) :
    fillReaches scope h t i = true := by
  cases scope with
  | interior => simp [fillReaches] at hscope ⊢; omega
  | allZero => simp [fillReaches]; omega

/-! ### A frame's samples by index -/

variable {F : List RawSample} {r : RawSample}

theorem distAt_of_getElem? (hr : F[i]? = some r) : distAt F i = r.distRaw := by simp [distAt, hr]

theorem angleAt_of_getElem? (hr : F[i]? = some r) : angleAt F i = (toCor r).ang := by simp [angleAt, hr, toCor]

theorem exists_return_of_distAt (hne : distAt F i ≠ 0) :
    ∃ a, (F.map toCor)[i]? = some a ∧ hasReturn a = true ∧ a.ang = angleAt F i := by
  cases hr : F[i]? with
  | none => simp [distAt, hr] at hne
  | some r =>
    rw [distAt_of_getElem? hr] at hne
    exact ⟨toCor r, by simp [hr], (hasReturn_toCor_iff r).mpr hne, (angleAt_of_getElem? hr).symm⟩

theorem miss_of_distAt (hz : distAt F i = 0) (hd : (F.map toCor)[i]? = some d) : hasReturn d = false := by
  rw [List.getElem?_map] at hd
  obtain ⟨r, hr, rfl⟩ := Option.map_eq_some_iff.mp hd
  exact hasReturn_toCor_eq_false (distAt_of_getElem? hr ▸ hz)

theorem IsFirstReturn.leadsWith (hh : IsFirstReturn F h) :
    ∃ a, LeadsWith (F.map toCor) h a ∧ a.ang = angleAt F h := by
  obtain ⟨a, hd, hreturn, hang⟩ := exists_return_of_distAt hh.1
  exact ⟨a, ⟨hd, hreturn, fun i _ hi hd => miss_of_distAt (hh.2 i hi) hd⟩, hang⟩

theorem IsLastReturn.trailsWith (ht : IsLastReturn F t) :
    ∃ b, TrailsWith (F.map toCor) t b ∧ b.ang = angleAt F t := by
  obtain ⟨b, hd, hreturn, hang⟩ := exists_return_of_distAt ht.1
  exact ⟨b, ⟨hd, hreturn, fun i _ hi hd => miss_of_distAt (ht.2 i hi) hd⟩, hang⟩

end Sys2Proof.Machine

open Sys2Proof Sys2Proof.Machine in
/-- Settles O50: `retune_rewrites` gives the angle at each position, which for a miss has one of three closed forms. -/
theorem rewrittenAnglesHaveClosedForms : Obligations.RewrittenAnglesHaveClosedForms := by
  unfold Obligations.RewrittenAnglesHaveClosedForms
  intro p F h t hnum hh ht
  obtain ⟨a, hl, ha⟩ := hh.leadsWith
  obtain ⟨b, htr, hb⟩ := ht.trailsWith
  refine ⟨by simp, fun i hi => ?_⟩
  have hr : F[i]? = some F[i] := List.getElem?_eq_getElem hi
  have hd : (F.map toCor)[i]? = some (toCor F[i]) := by simp [hr]
  rw [retune_rewrites p hl htr i, hd, distAt_of_getElem? hr, List.length_map, ← ha, ← hb]
  refine congrArg some ?_
  show retunedAng p F.length h t a b i (toCor F[i]) = _
  by_cases hreturn : F[i].distRaw = 0
  · have hm := hasReturn_toCor_eq_false hreturn
    have hih := hl.ne_of_miss hd hm
    rw [if_neg (not_not.mpr hreturn)]
    by_cases hhead : i < h
    · rw [if_pos hhead, retunedAng_of_head hnum hm hhead]
    rw [if_neg hhead]
    by_cases htail : t < i ∧ p.fillScope = .interior
    · rw [if_pos htail, retunedAng_of_tail hnum htail.2 (hl.le_trailsWith htr) htail.1]
    · have reached := fillReaches_of_not_tail (h := h) (by omega) (htr.ne_of_miss hd hm) htail
      rw [if_neg htail, retunedAng_of_filled hnum hm reached]
  · rw [if_pos hreturn, angleAt_of_getElem? hr]
    exact retunedAng_of_return F.length hl htr hd ((hasReturn_toCor_iff _).mpr hreturn)

end

