-- ==== Sys2Proof/Proofs/IntegerCorrector.lean ====
section
/-!
PROOFS. The corrector in units of `1/(64·n)` degree (44_frame_corrector.md R181): each of its steps is the corrector's own
step on the samples that the units denote.
-/

namespace Sys2Proof.Machine

variable {n : Nat}

/-! ### Units and degrees -/

theorem ofUnits_toUnits (hn : n ≠ 0) (r : RawSample) : ofUnits n (toUnits n r) = toCor r := by
  have degrees : ((r.angleRaw.toNat : Int) * n : Int) / (64 * (n : Rat)) = (r.angleRaw.toNat : Rat) / 64 := by
    push_cast
    exact mul_div_mul_right _ _ (by exact_mod_cast hn)
  simp only [ofUnits, toUnits, toCor, angleDeg, degrees]

/-- `wrap360` is the non-negative remainder modulo the full circle. -/
theorem wrap360_units (hn : n ≠ 0) (u : Int) :
    wrap360 .rational ((u : Rat) / (64 * n)) = ((u % (23040 * n) : Int) : Rat) / (64 * n) := by
  have hn' : 0 < (n : Rat) := by exact_mod_cast Nat.pos_of_ne_zero hn
  have circle : (0 : Int) < 23040 * n := by omega
  have nonneg : (0 : Rat) ≤ ((u % (23040 * n) : Int) : Rat) := by exact_mod_cast Int.emod_nonneg u circle.ne'
  have below : ((u % (23040 * n) : Int) : Rat) < 23040 * n := by exact_mod_cast Int.emod_lt_of_pos u circle
  have whole : (u : Rat) = (23040 * n) * ((u / (23040 * n) : Int) : Rat) + ((u % (23040 * n) : Int) : Rat) := by
    exact_mod_cast (Int.mul_ediv_add_emod u (23040 * n)).symm
  refine wrap360_rational_eq (by positivity) ?_ ⟨u / (23040 * n), ?_⟩
  · rw [div_lt_iff₀ (by positivity)]
    linarith
  · rw [← sub_div, div_eq_iff (by positivity)]
    linarith

/-- The increment is 23040 units. -/
theorem increment_units (hn : n ≠ 0) : increment .rational n = 23040 / (64 * (n : Rat)) := by
  have hn' : (n : Rat) ≠ 0 := by exact_mod_cast hn
  rw [increment, fl_rational]
  field_simp
  norm_num

theorem stepDown_units (hn : n ≠ 0) (u : Int) :
    stepDown .rational (increment .rational n) ((u : Rat) / (64 * n)) =
      (((u - 23040) % (23040 * n) : Int) : Rat) / (64 * n) := by
  rw [← wrap360_units hn, stepDown, fl_rational, increment_units hn, ← sub_div]
  push_cast
  rfl

theorem stepUp_units (hn : n ≠ 0) (u : Int) :
    stepUp .rational (increment .rational n) ((u : Rat) / (64 * n)) =
      (((u + 23040) % (23040 * n) : Int) : Rat) / (64 * n) := by
  rw [← wrap360_units hn, stepUp, fl_rational, increment_units hn, ← add_div]
  push_cast
  rfl

theorem fill_units (hn : n ≠ 0) (u : Int) (k : Nat) :
    wrap360 .rational ((u : Rat) / (64 * n) + (k : Rat) * increment .rational n) =
      (((u + 23040 * (k : Int)) % (23040 * n) : Int) : Rat) / (64 * n) := by
  rw [← wrap360_units hn, increment_units hn]
  congr 1
  push_cast
  ring

/-! ### The steps -/

theorem hasReturn_ofUnits (n : Nat) (c : IntSample) : hasReturn (ofUnits n c) = (c.distRaw != 0) := rfl

theorem not_hasReturn_ofUnits (n : Nat) (c : IntSample) : (!hasReturn (ofUnits n c)) = (c.distRaw == 0) := by
  rw [hasReturn_ofUnits, bne, Bool.not_not]

/-- The walk commutes with reading units as degrees when its step does. -/
theorem tuneLeading_map_ofUnits {f : Rat → Rat} {g : Int → Int}
    (hfg : ∀ u : Int, f ((u : Rat) / (64 * n)) = ((g u : Int) : Rat) / (64 * n)) (C : List IntSample) :
    tuneLeading f (C.map (ofUnits n)) = (tuneLeadingUnits g C).map (ofUnits n) := by
  induction C with
  | nil => rfl
  | cons c cs ih =>
    by_cases hz : c.distRaw = 0#16
    · have miss : hasReturn (ofUnits n c) = false := by simp [hasReturn_ofUnits, hz]
      cases hd : tuneLeadingUnits g cs with
      | nil =>
        rw [hd] at ih
        simp [tuneLeading, tuneLeadingUnits, miss, hz, hd, ih]
      | cons d ds =>
        rw [hd] at ih
        rw [List.map_cons, tuneLeading_of_miss miss ih]
        simp [tuneLeadingUnits, hz, hd, ofUnits, hfg]
    · have return_at : hasReturn (ofUnits n c) = true := by simp [hasReturn_ofUnits, hz]
      rw [List.map_cons, tuneLeading_of_return f return_at]
      simp [tuneLeadingUnits, hz]

theorem headTune_map_ofUnits (hn : n ≠ 0) (C : List IntSample) :
    headTune .rational (increment .rational n) (C.map (ofUnits n)) =
      (tuneLeadingUnits (fun a => (a - 23040) % (23040 * n)) C).map (ofUnits n) :=
  tuneLeading_map_ofUnits (stepDown_units hn) C

theorem tailTune_map_ofUnits (hn : n ≠ 0) (C : List IntSample) :
    tailTune .rational (increment .rational n) (C.map (ofUnits n)) =
      (tuneLeadingUnits (fun a => (a + 23040) % (23040 * n)) C.reverse).reverse.map (ofUnits n) := by
  rw [List.map_reverse, ← tuneLeading_map_ofUnits (stepUp_units hn), List.map_reverse]
  rfl

theorem interiorFill_map_ofUnits (hn : n ≠ 0) (C : List IntSample) :
    interiorFill .rational .interior (increment .rational n) (C.map (ofUnits n)) =
      (interiorFillUnits (23040 * n) C).map (ofUnits n) := by
  cases C with
  | nil => rfl
  | cons c cs =>
    have first : firstReturn ((c :: cs).map (ofUnits n)) = (c :: cs).findIdx fun d => d.distRaw != 0 :=
      List.findIdx_map _ _ _
    have last : lastReturn ((c :: cs).map (ofUnits n)) =
        (c :: cs).length - 1 - (c :: cs).reverse.findIdx fun d => d.distRaw != 0 := by
      rw [lastReturn, List.length_map, ← List.map_reverse, List.findIdx_map]
      rfl
    refine List.ext_getElem? fun i => ?_
    rw [interiorFillUnits, ← first, ← last, List.map_cons, interiorFill, List.getElem?_mapIdx, List.getElem?_map,
      List.getElem?_mapIdx, ← List.map_cons, List.getElem?_map, Option.map_map, Option.map_map]
    congr 1
    funext d
    simp only [Function.comp, not_hasReturn_ofUnits]
    split
    · simp only [ofUnits, fl_rational, fill_units hn]
    · rfl

theorem degenerate_map_ofUnits (n : Nat) (C : List IntSample) :
    degenerate (C.map (ofUnits n)) = C.all fun c => c.distRaw == 0 := by
  rw [degenerate, List.all_map]
  congr 1
  exact funext (not_hasReturn_ofUnits n)

theorem sortByAng_map_ofUnits (hn : n ≠ 0) (C : List IntSample) :
    sortByAng (C.map (ofUnits n)) = (C.insertionSort fun a b => a.units ≤ b.units).map (ofUnits n) := by
  have scale : 0 < 64 * (n : Rat) := by
    have : 0 < (n : Rat) := by exact_mod_cast Nat.pos_of_ne_zero hn
    positivity
  refine (List.map_insertionSort _ _ (ofUnits n) C fun a _ b _ => ?_).symm
  exact (Int.cast_le (R := Rat)).symm.trans (div_le_div_iff_of_pos_right scale).symm

/-- The angles of the two rewritings agree, step by step. -/
theorem retune_map_ofUnits (hn : n ≠ 0) {p : Params} (hnum : p.num = .rational) (hscope : p.fillScope = .interior)
    {C : List IntSample} (hlen : C.length = n) :
    retune p (C.map (ofUnits n)) =
      (interiorFillUnits (23040 * n) (tuneLeadingUnits (fun a => (a + 23040) % (23040 * n))
        (tuneLeadingUnits (fun a => (a - 23040) % (23040 * n)) C).reverse).reverse).map (ofUnits n) := by
  rw [retune, hnum, hscope, List.length_map, hlen, headTune_map_ofUnits hn, tailTune_map_ofUnits hn,
    interiorFill_map_ofUnits hn]

end Sys2Proof.Machine

open Sys2Proof Sys2Proof.Machine in
/-- Settles O53: the frame in units denotes the frame the corrector gets, and every step keeps that. -/
theorem integerCorrectorAgrees : Obligations.IntegerCorrectorAgrees := by
  unfold Obligations.IntegerCorrectorAgrees
  intro p F hnum hscope
  cases F with
  | nil => rfl
  | cons r F =>
    have hn : (r :: F).length ≠ 0 := by simp
    have denoted : (r :: F).map toCor = ((r :: F).map (toUnits (r :: F).length)).map (ofUnits (r :: F).length) := by
      rw [List.map_map]
      exact List.map_congr_left fun r _ => (ofUnits_toUnits hn r).symm
    simp only [correct, correctUnits]
    rw [denoted, degenerate_map_ofUnits, retune_map_ofUnits hn hnum hscope (by simp), sortByAng_map_ofUnits hn]
    split <;> rfl

end

