-- ==== Sys2Proof/Proofs/EmittedFrames.lean ====
section
/-!
PROOFS. What the filter emits of a corrected frame (45_normalizer_filter.md R198, R200): bounds on every output, and that
with a stride of 1 the rewritten angles, which belong to misses, have no part in it.
-/

namespace Sys2Proof.Machine

variable {m st : Half} {C D : List CorSample} {c d : CorSample}

/-! ### The range test in quarter millimetres -/

theorem inRange_iff_quarters (m : Half) (c : CorSample) :
    inRange m c = true ↔ c.distRaw ≠ 0 ∧ c.distRaw.toNat < 4 * m.toNat := by
  have positive : 0 < distanceMm c.distRaw ↔ c.distRaw ≠ 0 := by
    rw [Ne, ← distanceMm_eq_zero_iff, (distanceMm_nonneg _).lt_iff_ne, ne_comm]
  have below : distanceMm c.distRaw < (m.toNat : Rat) ↔ c.distRaw.toNat < 4 * m.toNat := by
    rw [distanceMm, div_lt_iff₀ (by norm_num), mul_comm]
    exact_mod_cast Iff.rfl
  rw [inRange_iff, positive, below]

theorem hasReturn_of_inRange (h : inRange m c = true) : hasReturn c = true := by
  simpa [hasReturn] using ((inRange_iff_quarters m c).mp h).1

theorem inRange_congr (m : Half) (h : c.distRaw = d.distRaw) : inRange m c = inRange m d := by
  rw [inRange, inRange, h]

/-! ### Visiting keeps the order and passes over no more than a stride -/

theorem visited_sublist (st : Nat) (C : List CorSample) : (visited st C).Sublist C := by
  have positions : ((C.zipIdx.filter fun p => p.2 % st == 0).map Prod.fst).Sublist (C.zipIdx.map Prod.fst) :=
    List.filter_sublist.map Prod.fst
  rwa [List.zipIdx_map_fst] at positions

theorem kept_sublist (m st : Half) (C : List CorSample) : (kept m st C).Sublist C :=
  List.filter_sublist.trans (visited_sublist st.toNat C)

/-- The last sample visited stands at one stride less than the number of them. -/
theorem length_visited_mul_lt {st : Nat} (hst : st ≠ 0) (C : List CorSample) :
    (visited st C).length * st < C.length + st := by
  cases hlen : (visited st C).length with
  | zero => omega
  | succ j =>
    have last : ∃ c, (visited st C)[j]? = some c := ⟨_, List.getElem?_eq_getElem (by omega)⟩
    obtain ⟨c, hc⟩ := last
    rw [getElem?_visited hst] at hc
    have inside : j * st < C.length := (List.getElem?_eq_some_iff.mp hc).1
    rw [Nat.succ_mul]
    omega

theorem length_kept_mul_lt (hst : st ≠ 0) (C : List CorSample) :
    (kept m st C).length * st.toNat < C.length + st.toNat := by
  have nonzero : st.toNat ≠ 0 := fun h => hst (BitVec.eq_of_toNat_eq h)
  have fewer : (kept m st C).length * st.toNat ≤ (visited st.toNat C).length * st.toNat :=
    Nat.mul_le_mul_right _ (List.length_filter_le _ _)
  exact fewer.trans_lt (length_visited_mul_lt nonzero C)

/-! ### The samples emitted are raw samples with a return -/

theorem mem_kept_inRange (h : c ∈ kept m st C) : c ∈ C ∧ inRange m c = true :=
  ⟨(kept_sublist m st C).subset h, List.of_mem_filter h⟩

theorem exists_return_of_kept_ne_nil {p : Params} {F : List RawSample} (hne : kept m st (correct p F) ≠ []) :
    ∃ r ∈ F, r.distRaw ≠ 0 := by
  by_contra hall
  have hmiss : ∀ r ∈ F, r.distRaw = 0 := by simpa using hall
  rw [correct_of_no_return p hmiss] at hne
  exact hne (kept_map_toCor_of_no_return m st hmiss)

/-- A sample of a corrected frame that has a return is a raw one (R179). -/
theorem mem_correct_of_return {p : Params} {F : List RawSample} (hr : ∃ r ∈ F, r.distRaw ≠ 0)
    (hc : c ∈ correct p F) (hreturn : hasReturn c = true) : ∃ r ∈ F, r.distRaw ≠ 0 ∧ c = toCor r := by
  rw [correct_of_return p hr] at hc
  obtain ⟨i, hi⟩ := List.mem_iff_getElem?.mp ((sortByAng_perm _).mem_iff.mp hc)
  have hlen : i < F.length := by simpa using (List.getElem?_eq_some_iff.mp hi).1
  have raw : (F.map toCor)[i]? = some (toCor F[i]) := by simp [hlen]
  obtain ⟨d, hd, retuned⟩ := retune_getElem? p (exists_hasReturn_map_toCor hr) raw
  cases hd.symm.trans hi
  have still_return : hasReturn (toCor F[i]) = true := by
    rwa [hasReturn, retuned.distRaw] at hreturn
  exact ⟨_, List.getElem_mem _, (hasReturn_toCor_iff _).mp still_return, retuned.of_return still_return⟩

theorem correct_ascending (p : Params) {F : List RawSample} (hr : ∃ r ∈ F, r.distRaw ≠ 0) :
    (correct p F).Pairwise fun a b => a.ang ≤ b.ang := by
  rw [correct_of_return p hr]
  exact sortByAng_ascending _

/-! ### Selecting and sorting -/

/-- One step of the sort. -/
def insertByAng (c : CorSample) (l : List CorSample) : List CorSample := l.orderedInsert (fun a b => a.ang ≤ b.ang) c

theorem sortByAng_cons (c : CorSample) (C : List CorSample) : sortByAng (c :: C) = insertByAng c (sortByAng C) := rfl

theorem insertByAng_cons_of_le {b : CorSample} (h : c.ang ≤ b.ang) (l : List CorSample) :
    insertByAng c (b :: l) = c :: b :: l := if_pos h

theorem insertByAng_cons_of_not_le {b : CorSample} (h : ¬ c.ang ≤ b.ang) (l : List CorSample) :
    insertByAng c (b :: l) = b :: insertByAng c l := if_neg h

theorem insertByAng_of_forall_le {l : List CorSample} (h : ∀ b ∈ l, c.ang ≤ b.ang) : insertByAng c l = c :: l := by
  cases l with
  | nil => rfl
  | cons b l => exact insertByAng_cons_of_le (h b List.mem_cons_self) l

/-- Inserting into a sorted list commutes with a selection. -/
theorem filter_insertByAng (q : CorSample → Bool) (c : CorSample) {l : List CorSample}
    (hl : l.Pairwise fun a b => a.ang ≤ b.ang) :
    (insertByAng c l).filter q = if q c then insertByAng c (l.filter q) else l.filter q := by
  induction l with
  | nil => simp [insertByAng, List.filter_cons]
  | cons b l ih =>
    obtain ⟨hle, hl⟩ := List.pairwise_cons.mp hl
    by_cases hcb : c.ang ≤ b.ang
    · have least : ∀ x ∈ (b :: l).filter q, c.ang ≤ x.ang := by
        intro x hx
        rcases List.mem_cons.mp (List.mem_of_mem_filter hx) with rfl | hx
        · exact hcb
        · exact hcb.trans (hle x hx)
      rw [insertByAng_cons_of_le hcb, insertByAng_of_forall_le least, List.filter_cons]
    · rw [insertByAng_cons_of_not_le hcb, List.filter_cons, List.filter_cons, ih hl]
      cases q b with
      | false => rfl
      | true => cases q c <;> simp [insertByAng_cons_of_not_le hcb]

/-- A selection of a sorted frame is the sort of the selection: the sort is stable (R178). -/
theorem filter_sortByAng (q : CorSample → Bool) (C : List CorSample) :
    (sortByAng C).filter q = sortByAng (C.filter q) := by
  induction C with
  | nil => rfl
  | cons c C ih =>
    rw [sortByAng_cons, filter_insertByAng q c (sortByAng_ascending C), ih, List.filter_cons]
    split <;> rfl

/-- The rewriting leaves what passes the range test as it was. -/
theorem filter_inRange_of_retuned (m : Half) (h : List.Forall₂ Retuned C D) :
    D.filter (inRange m) = C.filter (inRange m) := by
  induction h with
  | nil => rfl
  | cons retuned _ ih =>
    rw [List.filter_cons, List.filter_cons, ih, inRange_congr m retuned.distRaw]
    split
    next hin => rw [retuned.of_return (hasReturn_of_inRange hin)]
    next => rfl

theorem kept_one (m : Half) (C : List CorSample) : kept m 1 C = C.filter (inRange m) :=
  congrArg (List.filter (inRange m)) (visited_one C)

/-- What is emitted with a stride of 1, said without the rewriting. -/
theorem kept_one_correct (m : Half) (p : Params) {F : List RawSample} (hr : ∃ r ∈ F, r.distRaw ≠ 0) :
    kept m 1 (correct p F) = sortByAng ((F.map toCor).filter (inRange m)) := by
  rw [kept_one, correct_of_return p hr, filter_sortByAng,
    filter_inRange_of_retuned m (retune_forall₂ p (exists_hasReturn_map_toCor hr))]

end Sys2Proof.Machine

open Sys2Proof Sys2Proof.Machine in
/-- Settles O55: the interval's two ends, multiplied by 4; no distance word reaches 65536. -/
theorem rangeTestInQuarterMillimetres : Obligations.RangeTestInQuarterMillimetres := by
  unfold Obligations.RangeTestInQuarterMillimetres
  refine ⟨inRange_iff_quarters, fun c => ?_, fun m c hm => ?_, fun c hc => ?_⟩
  · exact Bool.eq_false_iff.mpr fun h => Nat.not_lt_zero _ ((inRange_iff_quarters 0 c).mp h).2
  · have far : c.distRaw.toNat < 4 * m.toNat := by
      have := c.distRaw.isLt
      omega
    rw [inRange_iff_quarters]
    exact and_iff_left far
  · have limit : 4 * maxRangeReset.toNat = 48000 := rfl
    refine Bool.eq_false_iff.mpr fun h => ?_
    have near := ((inRange_iff_quarters _ c).mp h).2
    omega

open Sys2Proof Sys2Proof.Machine in
/-- Settles O57: an output's samples are a selection of the sorted frame, in range and so with a return. -/
theorem emittedOutputsSatisfyTheirBounds : Obligations.EmittedOutputsSatisfyTheirBounds := by
  unfold Obligations.EmittedOutputsSatisfyTheirBounds
  intro p F m st hst hne
  have hr := exists_return_of_kept_ne_nil hne
  refine ⟨outputOk_kept hne, ?count, fun x hx => pos_of_mem_distance_kept hx, ?angles, ?ascending⟩
  case count =>
    have bound := length_kept_mul_lt (m := m) hst (correct p F)
    rwa [correct_length] at bound
  case angles =>
    intro x hx
    obtain ⟨c, hc, rfl⟩ := List.mem_map.mp hx
    obtain ⟨hmem, hin⟩ := mem_kept_inRange hc
    obtain ⟨r, hF, hreturn, rfl⟩ := mem_correct_of_return hr hmem (hasReturn_of_inRange hin)
    exact ⟨r, hF, hreturn, rfl⟩
  case ascending =>
    exact List.pairwise_map.mpr ((correct_ascending p hr).sublist (kept_sublist m st _))

open Sys2Proof Sys2Proof.Machine in
/-- Settles O58: what is emitted is said by `kept_one_correct` without the parameters, and is nothing in a degenerate
frame. -/
theorem outputIndependentOfNumberFormat : Obligations.OutputIndependentOfNumberFormat := by
  unfold Obligations.OutputIndependentOfNumberFormat
  intro p p' F m
  by_cases hr : ∃ r ∈ F, r.distRaw ≠ 0
  · rw [kept_one_correct m p hr, kept_one_correct m p' hr]
  · have hmiss : ∀ r ∈ F, r.distRaw = 0 := by simpa using hr
    rw [correct_of_no_return p hmiss, correct_of_no_return p' hmiss]

end
